-- ==== Sys2Proof/Word.lean ====
section
/-! DEFINITION. The unit of data: registers, addresses, opcode bytes and operand bytes are all 8 bits wide
(00_scope.md R6; 20_memory.md R44). -/

namespace Sys2Proof

/-- One byte, unsigned (R6, R114: the hardware has no signed operation). -/
abbrev Byte := BitVec 8

/-- The index of one of the eight registers `x[0]` to `x[7]` (R10). -/
abbrev Reg := Fin 8

end Sys2Proof
end

