-- ==== Sys2Proof/Config.lean ====
section
/-! DEFINITION. The parameters of rule R7: what the source leaves open and one machine fixes. The defaults the spec
gives them stand in Sys2Proof/Decode.lean (`OPC`) and Sys2Proof/Machine/Params.lean (the others). `M0`, the memory
at the first step, is no field here: it is the argument of `State.launch` (R206). -/

namespace Sys2Proof

/-- `BOUNDARY_POLICY` (R7, R90, D5): what happens when `pc + 1`, `pc + 2` or the advanced `pc` passes `0xFF`. -/
inductive BoundaryPolicy where
  /-- the step raises `Undefined_Boundary` -/
  | fault
  /-- the sums are taken modulo 256 -/
  | wrap
  deriving DecidableEq, Repr

/-- `NOT_POLICY` (R7, R112, D6): the value `NOT` stores. -/
inductive NotPolicy where
  /-- the 8-bit complement -/
  | mask8
  /-- the model gives `NOT` no meaning -/
  | refuse
  deriving DecidableEq, Repr

/-- `REGIDX_POLICY` (R7, R63, D10): a register-operand byte greater than 7. -/
inductive RegidxPolicy where
  /-- the step raises `Undefined_RegisterIndex` -/
  | fault
  /-- bits 2:0 of the byte are the index -/
  | mask3
  deriving DecidableEq, Repr

/-- `OPC` (R7, R66, D1): the opcode byte of each of the 27 mnemonics. -/
structure Opc where
  hlt  : Byte
  ldi  : Byte
  ld   : Byte
  st   : Byte
  nop  : Byte
  add  : Byte
  sub  : Byte
  mul  : Byte
  div  : Byte
  mod  : Byte
  inc  : Byte
  dec  : Byte
  and  : Byte
  or   : Byte
  xor  : Byte
  not  : Byte
  cmp  : Byte
  jmp  : Byte
  jeq  : Byte
  jgt  : Byte
  jlt  : Byte
  jne  : Byte
  push : Byte
  pop  : Byte
  call : Byte
  ret  : Byte
  prn  : Byte
  deriving DecidableEq, Repr

/-- The parameters of rule R7 that are fixed for one machine. -/
structure Config where
  opc      : Opc
  resetGpr : Vector Byte 5
  resetIr  : Byte
  boundary : BoundaryPolicy
  not      : NotPolicy
  regidx   : RegidxPolicy
  deriving DecidableEq, Repr

end Sys2Proof
end

