-- ==== Sys2Proof/Syntax.lean ====
section
/-! DEFINITION. The instructions: one constructor of `Instr` per row of spec/opcode_table.json (30_encoding.md R66),
holding the operand bytes its format names (R62), exactly as the step hands them to the handler (R86). A register
operand is kept as its whole byte, because what a byte above 7 names is a matter of `REGIDX_POLICY` (R63). -/

namespace Sys2Proof

/-- The four formats of R62. -/
inductive Format where
  /-- one byte, no operand -/
  | op0
  /-- two bytes, one register operand -/
  | op1R
  /-- three bytes, two register operands -/
  | op2RR
  /-- three bytes, a register operand and an 8-bit immediate -/
  | op2RI
  deriving DecidableEq, Repr

/-- The names of the 27 instructions, in the order of R66. -/
inductive Mnemonic where
  | hlt
  | ldi
  | ld
  | st
  | nop
  | add
  | sub
  | mul
  | div
  | mod
  | inc
  | dec
  | and
  | or
  | xor
  | not
  | cmp
  | jmp
  | jeq
  | jgt
  | jlt
  | jne
  | push
  | pop
  | call
  | ret
  | prn
  deriving DecidableEq, Repr

/-- An instruction with its operand bytes: `opA` is the first written operand, `opB` the second (R65). -/
inductive Instr where
  /-- `HLT` (R120) -/
  | hlt
  /-- `LDI` (R125) -/
  | ldi (opA opB : Byte)
  /-- `LD` (R126) -/
  | ld (opA opB : Byte)
  /-- `ST` (R127) -/
  | st (opA opB : Byte)
  /-- `NOP` (R128) -/
  | nop
  /-- `ADD` (R130) -/
  | add (opA opB : Byte)
  /-- `SUB` (R131) -/
  | sub (opA opB : Byte)
  /-- `MUL` (R132) -/
  | mul (opA opB : Byte)
  /-- `DIV` (R133) -/
  | div (opA opB : Byte)
  /-- `MOD` (R134) -/
  | mod (opA opB : Byte)
  /-- `INC` (R135) -/
  | inc (opA : Byte)
  /-- `DEC` (R136) -/
  | dec (opA : Byte)
  /-- `AND` (R140) -/
  | and (opA opB : Byte)
  /-- `OR` (R141) -/
  | or (opA opB : Byte)
  /-- `XOR` (R142) -/
  | xor (opA opB : Byte)
  /-- `NOT` (R143) -/
  | not (opA : Byte)
  /-- `CMP` (R150) -/
  | cmp (opA opB : Byte)
  /-- `JMP` (R151) -/
  | jmp (opA : Byte)
  /-- `JEQ` (R152) -/
  | jeq (opA : Byte)
  /-- `JGT` (R153) -/
  | jgt (opA : Byte)
  /-- `JLT` (R154) -/
  | jlt (opA : Byte)
  /-- `JNE` (R155) -/
  | jne (opA : Byte)
  /-- `PUSH` (R162) -/
  | push (opA : Byte)
  /-- `POP` (R163) -/
  | pop (opA : Byte)
  /-- `CALL` (R165) -/
  | call (opA : Byte)
  /-- `RET` (R166) -/
  | ret
  /-- `PRN` (R170) -/
  | prn (opA : Byte)
  deriving DecidableEq, Repr

/-- All mnemonics, in the order of R66. -/
def Mnemonic.all : List Mnemonic :=
  [.hlt, .ldi, .ld, .st, .nop, .add, .sub, .mul, .div,
   .mod, .inc, .dec, .and, .or, .xor, .not, .cmp, .jmp,
   .jeq, .jgt, .jlt, .jne, .push, .pop, .call, .ret, .prn]

/-- The format of each mnemonic (R62, R66). -/
def Mnemonic.format : Mnemonic → Format
  | .hlt | .nop | .ret => .op0
  | .inc | .dec | .not | .jmp | .jeq | .jgt | .jlt | .jne | .push | .pop | .call | .prn => .op1R
  | .ldi => .op2RI
  | .ld | .st | .add | .sub | .mul | .div | .mod | .and | .or | .xor | .cmp => .op2RR

/-- How many operand bytes a format has (R62). -/
def Format.operandCount : Format → Nat
  | .op0 => 0
  | .op1R => 1
  | .op2RR | .op2RI => 2

/-- The mnemonic of an instruction. -/
def Instr.mnemonic : Instr → Mnemonic
  | .hlt => .hlt
  | .ldi _ _ => .ldi
  | .ld _ _ => .ld
  | .st _ _ => .st
  | .nop => .nop
  | .add _ _ => .add
  | .sub _ _ => .sub
  | .mul _ _ => .mul
  | .div _ _ => .div
  | .mod _ _ => .mod
  | .inc _ => .inc
  | .dec _ => .dec
  | .and _ _ => .and
  | .or _ _ => .or
  | .xor _ _ => .xor
  | .not _ => .not
  | .cmp _ _ => .cmp
  | .jmp _ => .jmp
  | .jeq _ => .jeq
  | .jgt _ => .jgt
  | .jlt _ => .jlt
  | .jne _ => .jne
  | .push _ => .push
  | .pop _ => .pop
  | .call _ => .call
  | .ret => .ret
  | .prn _ => .prn

/-- The operand bytes of an instruction, in the order they follow the opcode byte (R60, R65). -/
def Instr.operands : Instr → List Byte
  | .hlt | .nop | .ret => []
  | .inc opA | .dec opA | .not opA | .jmp opA
  | .jeq opA | .jgt opA | .jlt opA | .jne opA
  | .push opA | .pop opA | .call opA | .prn opA => [opA]
  | .ldi opA opB | .ld opA opB | .st opA opB | .add opA opB
  | .sub opA opB | .mul opA opB | .div opA opB | .mod opA opB
  | .and opA opB | .or opA opB | .xor opA opB | .cmp opA opB => [opA, opB]

/-- The operand bytes that the format reads as register indices, operand A before operand B (R63: A for `OP1_R`
and `OP2_RI`, A and B for `OP2_RR`). -/
def Instr.regOperands (i : Instr) : List Byte :=
  match i.mnemonic.format with
  | .op2RI => i.operands.take 1
  | .op0 | .op1R | .op2RR => i.operands

end Sys2Proof
end

