-- ==== Sys2Proof/WellFormed.lean ====
section
/-! DEFINITION. Which instructions name only registers that exist (10_state.md R16; 30_encoding.md R63). The
immediate of `LDI` is never checked (R64). -/

namespace Sys2Proof

/-- A register-operand byte that names a register: 0 to 7 (R63). -/
def regInRange (b : Byte) : Bool := decide (b.toNat < 8)

/-- Every register operand the format names is in range (R63). -/
def Instr.wellFormed (i : Instr) : Bool := i.regOperands.all regInRange

end Sys2Proof
end

