-- ==== Sys2Proof/Decode.lean ====
section
/-! DEFINITION. The encoding (30_encoding.md): opcode bytes, the decoder, the encoder, the assembly form, and the
host's numbering of an instruction's bits. The decoder is total on any three bytes and rejects by name. -/

namespace Sys2Proof

/-- The operand count an opcode byte carries in its top two bits, `(b >> 6) & 0b11` (R61). -/
def opcount (b : Byte) : Nat := (b.extractLsb' 6 2).toNat

/-- The opcode byte `OPC(m)` of a mnemonic (R66). -/
def Opc.byteOf (t : Opc) : Mnemonic → Byte
  | .hlt => t.hlt
  | .ldi => t.ldi
  | .ld => t.ld
  | .st => t.st
  | .nop => t.nop
  | .add => t.add
  | .sub => t.sub
  | .mul => t.mul
  | .div => t.div
  | .mod => t.mod
  | .inc => t.inc
  | .dec => t.dec
  | .and => t.and
  | .or => t.or
  | .xor => t.xor
  | .not => t.not
  | .cmp => t.cmp
  | .jmp => t.jmp
  | .jeq => t.jeq
  | .jgt => t.jgt
  | .jlt => t.jlt
  | .jne => t.jne
  | .push => t.push
  | .pop => t.pop
  | .call => t.call
  | .ret => t.ret
  | .prn => t.prn

/-- The default `OPC`, the table of R66. PRESUMED: the spec marks these numbers as from general knowledge (D1, log 1). -/
def defaultOpc : Opc where
  hlt := 0x01
  ldi := 0x99
  ld := 0x98
  st := 0x9A
  nop := 0x00
  add := 0xA8
  sub := 0xA9
  mul := 0xAA
  div := 0xAB
  mod := 0xAC
  inc := 0x78
  dec := 0x79
  and := 0xB3
  or := 0xB1
  xor := 0xB2
  not := 0x70
  cmp := 0xA0
  jmp := 0x50
  jeq := 0x51
  jgt := 0x54
  jlt := 0x53
  jne := 0x52
  push := 0x4D
  pop := 0x4C
  call := 0x48
  ret := 0x09
  prn := 0x43

/-- What R67 asks of any `OPC`: (a) injective; (b) the top two bits of each opcode are its operand count. -/
abbrev Opc.Valid (t : Opc) : Prop :=
  (∀ m ∈ Mnemonic.all, ∀ n ∈ Mnemonic.all, t.byteOf m = t.byteOf n → m = n) ∧
  (∀ m ∈ Mnemonic.all, opcount (t.byteOf m) = m.format.operandCount)

/-- The dispatch table's lookup (R83): the mnemonic whose opcode the byte is, or none. -/
def Opc.lookup (t : Opc) (b : Byte) : Option Mnemonic :=
  Mnemonic.all.find? fun m => t.byteOf m == b

/-- The instruction of a mnemonic with the two candidate operand bytes; a byte the format does not name is ignored
(R62, R70). -/
def Mnemonic.toInstr (m : Mnemonic) (opA opB : Byte) : Instr :=
  match m with
  | .hlt => .hlt
  | .ldi => .ldi opA opB
  | .ld => .ld opA opB
  | .st => .st opA opB
  | .nop => .nop
  | .add => .add opA opB
  | .sub => .sub opA opB
  | .mul => .mul opA opB
  | .div => .div opA opB
  | .mod => .mod opA opB
  | .inc => .inc opA
  | .dec => .dec opA
  | .and => .and opA opB
  | .or => .or opA opB
  | .xor => .xor opA opB
  | .not => .not opA
  | .cmp => .cmp opA opB
  | .jmp => .jmp opA
  | .jeq => .jeq opA
  | .jgt => .jgt opA
  | .jlt => .jlt opA
  | .jne => .jne opA
  | .push => .push opA
  | .pop => .pop opA
  | .call => .call opA
  | .ret => .ret
  | .prn => .prn opA

/-- Why three bytes are no instruction. -/
inductive DecodeError where
  /-- the opcode byte has no entry in the dispatch table (R68) -/
  | invalidOpcode (b : Byte)
  deriving DecidableEq, Repr

/-- Decode the opcode byte and the two bytes after it (R74), which the step always reads (R82). -/
def decode (t : Opc) (ir opA opB : Byte) : Except DecodeError Instr :=
  match t.lookup ir with
  | none => .error (.invalidOpcode ir)
  | some m => .ok (m.toInstr opA opB)

/-- The bytes of an instruction in ascending address order: opcode, operand A, operand B (R60, R65). -/
def encode (t : Opc) (i : Instr) : List Byte :=
  t.byteOf i.mnemonic :: i.operands

/-- Byte `k` of an instruction whose bits are numbered as spec/opcode_table.json numbers them: bits `8k+7..8k` of `w`
cut to its low `nbits` bits. -/
def tableByte (nbits w k : Nat) : Byte :=
  BitVec.ofNat 8 (w % 2 ^ nbits / 2 ^ (8 * k))

/-- The instruction the decoder reads, under the default `OPC`, from a table word. -/
def decodeTableWord (nbits w : Nat) : Option Instr :=
  match decode defaultOpc (tableByte nbits w 0) (tableByte nbits w 1) (tableByte nbits w 2) with
  | .ok i => some i
  | .error _ => none

/-- The mnemonic as assembly text writes it, in capitals (R72). -/
def Mnemonic.text : Mnemonic → String
  | .hlt => "HLT"
  | .ldi => "LDI"
  | .ld => "LD"
  | .st => "ST"
  | .nop => "NOP"
  | .add => "ADD"
  | .sub => "SUB"
  | .mul => "MUL"
  | .div => "DIV"
  | .mod => "MOD"
  | .inc => "INC"
  | .dec => "DEC"
  | .and => "AND"
  | .or => "OR"
  | .xor => "XOR"
  | .not => "NOT"
  | .cmp => "CMP"
  | .jmp => "JMP"
  | .jeq => "JEQ"
  | .jgt => "JGT"
  | .jlt => "JLT"
  | .jne => "JNE"
  | .push => "PUSH"
  | .pop => "POP"
  | .call => "CALL"
  | .ret => "RET"
  | .prn => "PRN"

/-- A register operand in assembly text (R11, R72). DESIGN CHOICE (log 28): R72 writes `R0` to `R7` only; a byte above 7 is
rendered here as `R` and its own numeral, also under `mask3`. -/
def regText (b : Byte) : String := "R" ++ toString b.toNat

/-- The assembly form of an instruction (R72, D24): the mnemonic, a space, the operands separated by a comma; an
immediate is an unsigned decimal numeral. -/
def Instr.asm (i : Instr) : String :=
  match i.mnemonic.format, i.operands with
  | .op1R, [a] => i.mnemonic.text ++ " " ++ regText a
  | .op2RR, [a, b] => i.mnemonic.text ++ " " ++ regText a ++ "," ++ regText b
  | .op2RI, [a, b] => i.mnemonic.text ++ " " ++ regText a ++ "," ++ toString b.toNat
  | _, _ => i.mnemonic.text

end Sys2Proof
end

