-- ==== Sys2Proof/Machine/Params.lean ====
section
/-! DEFINITION. The default values of the parameters of rule R7, the reset values of rule R32, and what a memory byte
that no list entry names reads as. -/

namespace Sys2Proof.Machine

/-- `RESET_GPR`, default `0x00` each (R7). DESIGN CHOICE (D2, log 2). -/
def defaultResetGpr : Vector Byte 5 := #v[0x00, 0x00, 0x00, 0x00, 0x00]

/-- `RESET_IR`, default `0x00` (R7). DESIGN CHOICE (D3, log 3). -/
def defaultResetIr : Byte := 0x00

/-- `BOUNDARY_POLICY`, default `fault` (R7). DESIGN CHOICE (D5, log 5). -/
def defaultBoundary : BoundaryPolicy := .fault

/-- `NOT_POLICY`, default `mask8` (R7). DESIGN CHOICE (D6, log 6). -/
def defaultNot : NotPolicy := .mask8

/-- `REGIDX_POLICY`, default `fault` (R7). DESIGN CHOICE (D10, log 10). -/
def defaultRegidx : RegidxPolicy := .fault

/-- The machine with every parameter at its default (R7). -/
def defaultConfig : Config where
  opc := defaultOpc
  resetGpr := defaultResetGpr
  resetIr := defaultResetIr
  boundary := defaultBoundary
  not := defaultNot
  regidx := defaultRegidx

/-- The register file after reset (R32): `RESET_GPR`, then IM = 0, IS = 0, SP = `0xF4`. -/
def resetRegs (c : Config) : Vector Byte 8 :=
  #v[c.resetGpr[0], c.resetGpr[1], c.resetGpr[2], c.resetGpr[3], c.resetGpr[4], 0x00, 0x00, 0xF4]

/-- The program counter after reset: the entry point (R32, R202). -/
def resetPc : Byte := 0x00

/-- The flags register after reset (R32). -/
def resetFl : Byte := 0x00

/-- What a memory byte reads as that no entry of the list names. DESIGN CHOICE (log 15): the spec gives no contents
(R206); every total map `M0` is still the reading of some list (`Memory.ofMap`). -/
def unlistedByte : Byte := 0x00

end Sys2Proof.Machine
end

