-- ==== Sys2Proof/Machine/State.lean ====
section
/-! DEFINITION. The state of the engine and of the memory it owns (10_state.md; 20_memory.md R43), the reasons a step
can stop, and the state after reset (R32, R200). -/

namespace Sys2Proof.Machine

/-- The conditions the spec leaves undefined and treats as model faults (60_exceptions.md R188, R189). Under the
policies `wrap` and `mask3` neither is raised. -/
inductive Fault where
  /-- `Undefined_Boundary(pc)` (R90, R188): raised by the step when it begins with `pc` at `0xFE` or above, and by the
  advance of a handler that falls through past `0xFF`, under `BOUNDARY_POLICY = fault`. Safe: the model stops where the
  source says nothing (log 5). -/
  | undefinedBoundary (pc : Byte)
  /-- `Undefined_RegisterIndex(b)` (R63, R189): raised by any instruction whose format names a register operand, when
  that byte is above 7, under `REGIDX_POLICY = fault`. Safe: the model stops where the source says nothing (log 10). -/
  | undefinedRegisterIndex (b : Byte)
  deriving DecidableEq, Repr

/-- The reasons the model gives an instruction no meaning. -/
inductive Refusal where
  /-- Raised by the dispatch for an instruction without a meaning yet; no arm raises it. Safe. -/
  | notModelled (mnemonic : String)
  /-- Raised by `NOT` under `NOT_POLICY = refuse`, which is not the default (R112, R143). Safe. -/
  | notWithheld
  deriving DecidableEq, Repr

/-- The run state (R28, R93). -/
inductive RunState where
  | running
  | halted
  deriving DecidableEq, Repr

/-- The kinds of fatal condition a report names (R184). -/
inductive ReportKind where
  | invalidOpcode
  | divideByZero
  deriving DecidableEq, Repr

/-- One event `Report(kind, info)`: `info` is the byte in `ir` (R184). -/
structure Report where
  kind : ReportKind
  info : Byte
  deriving DecidableEq, Repr

/-- The 256 bytes of memory (R40), as the entries that differ from `unlistedByte`, in rising order of address. -/
abbrev Memory := List Host.Cell

/-- The canonical form: addresses strictly rise and lie in 0 to 255, and no entry holds `unlistedByte`. -/
abbrev Memory.wf (m : Memory) : Prop :=
  m.Pairwise (fun c d => c.1 < d.1) ∧ ∀ c ∈ m, c.1 < 256 ∧ c.2 ≠ unlistedByte

/-- Everything the spec gives the machine, the two traces of a run, and the parameters of the machine. -/
structure State where
  /-- the parameters of R7; the model's own field, which no step changes (log 16) -/
  cfg  : Config
  /-- `x[0]` to `x[7]` (R10 to R14) -/
  regs : Vector Byte 8
  /-- the program counter (R20, R21) -/
  pc   : Byte
  /-- the instruction register (R24) -/
  ir   : Byte
  /-- the flags register (R25 to R27) -/
  fl   : Byte
  /-- the run state (R28) -/
  run  : RunState
  /-- the memory (R40 to R43) -/
  mem  : Memory
  /-- the PRN trace, in execution order (R170; log 14) -/
  out  : List Byte
  /-- the report trace, in execution order (R184; log 14) -/
  rep  : List Report
  deriving DecidableEq, Repr

/-- The state a machine with parameters `c` has after reset (R32), its memory listing nothing. -/
def State.resetWith (c : Config) : State where
  cfg := c
  regs := resetRegs c
  pc := resetPc
  ir := c.resetIr
  fl := resetFl
  run := .running
  mem := []
  out := []
  rep := []

/-- The default machine right after reset (R32). -/
def State.reset : State := State.resetWith defaultConfig

end Sys2Proof.Machine
end

