-- ==== Sys2Proof/Machine/Ops.lean ====
section
/-! DEFINITION. The named operations over registers and memory, the two fatal conditions, the advance of the program
counter and the fetch (20_memory.md R41, R42; 40_step_cycle.md R81, R82, R87 to R90; 47_stack.md R160, R161;
60_exceptions.md R181 to R187). -/

namespace Sys2Proof.Machine

/-- What a handler answers the step with, and what the step answers the driver with. -/
abbrev Result := Host.Outcome State Fault Refusal

/-! ### Memory -/

/-- `MemRead(addr, 1)` (R41). Every address 0 to 255 exists and may be read (R45, R50). -/
def Memory.read (m : Memory) (addr : Byte) : Byte :=
  match m with
  | [] => unlistedByte
  | (k, v) :: rest => if k = addr.toNat then v else Memory.read rest addr

/-- `MemWrite(addr, 1, v)` (R42), keeping the canonical form. -/
def Memory.write (m : Memory) (addr v : Byte) : Memory :=
  match m with
  | [] => if v = unlistedByte then [] else [(addr.toNat, v)]
  | (k, w) :: rest =>
    if addr.toNat < k then
      if v = unlistedByte then (k, w) :: rest else (addr.toNat, v) :: (k, w) :: rest
    else if addr.toNat = k then
      if v = unlistedByte then rest else (k, v) :: rest
    else (k, w) :: Memory.write rest addr v

/-- The memory that reads as a total map from the 256 addresses to bytes: the launch argument `M0` (R206). -/
def Memory.ofMap (m0 : Byte → Byte) : Memory :=
  (List.range 256).filterMap fun n =>
    if m0 (BitVec.ofNat 8 n) = unlistedByte then none else some (n, m0 (BitVec.ofNat 8 n))

/-- The byte at an address, as the engine reads it. -/
def State.load (s : State) (addr : Byte) : Byte := Memory.read s.mem addr

/-- The engine's write of one byte. -/
def State.store (s : State) (addr v : Byte) : State := { s with mem := Memory.write s.mem addr v }

/-! ### Registers -/

/-- The index of the stack pointer, `x[7]` (R14). -/
def sp : Reg := 7

/-- `x[r]` (R10). No register is hard-wired (R11). -/
def State.reg (s : State) (r : Reg) : Byte := s.regs[r]

/-- `x[r] <- v`. -/
def State.setReg (s : State) (r : Reg) (v : Byte) : State := { s with regs := s.regs.set r v }

/-- `pc <- target`. -/
def State.setPc (s : State) (target : Byte) : State := { s with pc := target }

/-- `ir <- b`, made by the fetch alone (R24, R81). -/
def State.setIr (s : State) (b : Byte) : State := { s with ir := b }

/-- `fl <- f`, made by `CMP` alone (R26). -/
def State.setFl (s : State) (f : Byte) : State := { s with fl := f }

/-- `run <- halted` (R28, R93). -/
def State.halt (s : State) : State := { s with run := .halted }

/-- `Output(v)`: one more line of the PRN trace (R170). -/
def State.emit (s : State) (v : Byte) : State := { s with out := s.out ++ [v] }

/-- The driver's view of the run state (R28, R207). -/
def State.halted (s : State) : Bool := s.run == .halted

/-! ### The stack (R160, R161): no bounds are checked and the pointer wraps modulo 256 -/

/-- Decrement the stack pointer, then write a byte where it points. The byte is computed in the state after the
decrement, in the order of the words (D11, log 11). -/
def State.push (s : State) (value : State → Byte) : State :=
  let s1 := s.setReg sp (s.reg sp - 1)
  s1.store (s.reg sp - 1) (value s1)

/-- The byte the stack pointer points at. -/
def State.top (s : State) : Byte := s.load (s.reg sp)

/-- Increment the stack pointer. -/
def State.dropTop (s : State) : State := s.setReg sp (s.reg sp + 1)

/-! ### Fatal conditions -/

/-- Taking a fatal condition, `InvalidOpcode` or `DivideByZero` (R181, R182, R187): `Report(kind, ir)` is appended to
the report trace and the engine halts. Nothing is saved and control goes nowhere: there is no vector, no saved `pc` and
no mode. There is no return from it (R190): only reset runs the engine again. -/
def State.raiseFatal (s : State) (kind : ReportKind) : State :=
  { s with run := .halted, rep := s.rep ++ [⟨kind, s.ir⟩] }

/-! ### The advance (R84, R87 to R90) -/

/-- The two results of a handler that goes on (R84). -/
inductive Next where
  /-- the default advance applies -/
  | fallthrough
  /-- an explicit next program counter -/
  | jump (target : Byte)
  deriving DecidableEq, Repr

/-- `pc + 1 + ir[7:6]`, unreduced; computed from `ir`, not from the handler (R87, R88). -/
def State.advanceSum (s : State) : Nat := s.pc.toNat + 1 + opcount s.ir

/-- The advance passes `0xFF` under `BOUNDARY_POLICY = fault` (R90 (b)). -/
def State.advancePasses (s : State) : Bool :=
  decide (0xFF < s.advanceSum) && s.cfg.boundary == .fault

/-- The end of a step that reached a handler: set `pc` to the handler's address, or advance it, also when the handler
ended the run (R87, R89, D12). -/
def complete (s : State) : Next → Result
  | .jump target => .next (s.setPc target)
  | .fallthrough =>
    if s.advancePasses then .fault (.undefinedBoundary s.pc)
    else .next (s.setPc (BitVec.ofNat 8 s.advanceSum))

/-! ### The fetch (R81, R82, R90, R91) -/

/-- The opcode byte, `MemRead(pc, 1)` (R81). -/
def State.fetchIr (s : State) : Byte := s.load s.pc

/-- The first candidate operand byte, `MemRead((pc + 1) mod 256, 1)`, read in every step (R82). -/
def State.fetchA (s : State) : Byte := s.load (s.pc + 1)

/-- The second candidate operand byte, `MemRead((pc + 2) mod 256, 1)`, read in every step (R82). -/
def State.fetchB (s : State) : Byte := s.load (s.pc + 2)

/-- The instruction at `pc`, or why there is none (R74, R83). -/
def State.decoded (s : State) : Except DecodeError Instr :=
  decode s.cfg.opc s.fetchIr s.fetchA s.fetchB

/-- The eager reads of a step that begins here would pass `0xFF` under `BOUNDARY_POLICY = fault` (R90 (a)). -/
def State.entryPasses (s : State) : Bool :=
  decide (0xFE ≤ s.pc.toNat) && s.cfg.boundary == .fault

end Sys2Proof.Machine
end

