-- ==== Sys2Proof/Machine/Operands.lean ====
section
/-! DEFINITION. The operand forms of 30_encoding.md section 2: a register operand (R63), the immediate of `LDI` (R64),
and the register-indirect address of `LD` and `ST` (R126, R127). -/

namespace Sys2Proof.Machine

/-- `reg(b)` (R63): the byte is the index; above 7 it names no register under `fault`, and its bits 2:0 are the index
under `mask3`. -/
def regIndex (p : RegidxPolicy) (b : Byte) : Option Reg :=
  if h : b.toNat < 8 then some ⟨b.toNat, h⟩
  else match p with
    | .fault => none
    | .mask3 => some ⟨b.toNat % 8, Nat.mod_lt _ (by decide)⟩

/-- A register operand: the check precedes everything the handler does (R63, R186), then the handler goes on with the
index. -/
def withReg (s : State) (b : Byte) (k : Reg → Result) : Result :=
  match regIndex s.cfg.regidx b with
  | some r => k r
  | none => .fault (.undefinedRegisterIndex b)

/-- Two register operands, operand A checked before operand B (R186). -/
def withRegs (s : State) (opA opB : Byte) (k : Reg → Reg → Result) : Result :=
  withReg s opA fun a => withReg s opB fun b => k a b

/-- The immediate operand: the byte itself, neither extended nor scaled (R64). -/
def immediate (b : Byte) : Byte := b

/-- A register-indirect address: the register's value, with no offset (R126, R127). -/
def State.indirect (s : State) (r : Reg) : Byte := s.reg r

end Sys2Proof.Machine
end

