-- ==== Sys2Proof/Machine/Flags.lean ====
section
/-! DEFINITION. The flags register (10_state.md R25 to R27): its bits, what `CMP` computes (41_alu.md R113), and the
conditions the jumps test (46_compare_branch.md R152 to R155). No other instruction computes a flag (R26, R114). -/

namespace Sys2Proof.Machine

/-- `fl.E`, bit 0 (R25). -/
def flagE (fl : Byte) : Bool := fl.getLsbD 0

/-- `fl.G`, bit 1 (R25). -/
def flagG (fl : Byte) : Bool := fl.getLsbD 1

/-- `fl.L`, bit 2 (R25). -/
def flagL (fl : Byte) : Bool := fl.getLsbD 2

/-- The new flags of an unsigned comparison, first operand against second (R113, D8, log 8): E, G or L alone. -/
def compareFlags (a b : Byte) : Byte :=
  if a.toNat = b.toNat then 0b00000001
  else if b.toNat < a.toNat then 0b00000010
  else 0b00000100

/-- The condition of `JEQ`: E = 1 (R152). -/
def condEq (fl : Byte) : Bool := flagE fl

/-- The condition of `JNE`: E = 0 (R155, D9, log 9). -/
def condNe (fl : Byte) : Bool := !flagE fl

/-- The condition of `JGT`: G = 1 (R153, D9). -/
def condGt (fl : Byte) : Bool := flagG fl

/-- The condition of `JLT`: L = 1 (R154, D9). -/
def condLt (fl : Byte) : Bool := flagL fl

end Sys2Proof.Machine
end

