-- ==== Sys2Proof/Machine/Alu.lean ====
section
/-! DEFINITION. The 8-bit ALU (41_alu.md): twelve operations (R100, R115), pure functions of the operand values, and
the handler's use of it (R101). Operands are taken as numbers, the exact result is computed, and it is reduced modulo
256 at the end. -/

namespace Sys2Proof.Machine

/-- The twelve operations (R100). -/
inductive AluOp where
  | add | sub | mul | div | mod | inc | dec | and | or | xor | not | cmp
  deriving DecidableEq, Repr

/-- What the ALU puts out (R100): a result byte, or for `CMP` a new value of `fl`. -/
inductive AluOut where
  | value (y : Byte)
  | flags (f : Byte)
  deriving DecidableEq, Repr

/-- The residue in 0 to 255 of an exact result, also of a negative one (00_scope.md section 5). -/
def wrap8 (z : Int) : Byte := BitVec.ofInt 8 z

/-- The ALU (R102 to R113). A unary operation ignores `b`. It has no answer exactly where the spec never evaluates it:
`DIV` and `MOD` with `b = 0` (R105, R106, U4). -/
def alu (op : AluOp) (a b : Byte) : Option AluOut :=
  match op with
  | .add => some (.value (wrap8 (a.toNat + b.toNat)))
  | .sub => some (.value (wrap8 (a.toNat - b.toNat)))
  | .mul => some (.value (wrap8 (a.toNat * b.toNat)))
  | .div => if b.toNat = 0 then none else some (.value (BitVec.ofNat 8 (a.toNat / b.toNat)))
  | .mod => if b.toNat = 0 then none else some (.value (BitVec.ofNat 8 (a.toNat % b.toNat)))
  | .inc => some (.value (wrap8 (a.toNat + 1)))
  | .dec => some (.value (wrap8 (a.toNat - 1)))
  | .and => some (.value (a &&& b))
  | .or => some (.value (a ||| b))
  | .xor => some (.value (a ^^^ b))
  | .not => some (.value (~~~a))
  | .cmp => some (.flags (compareFlags a b))

/-- A handler that delegates to the ALU (R101): the result goes to the first operand register, or to `fl` for `CMP`.
Where the ALU is not evaluated, the divisor is zero and the handler raises `DivideByZero` instead of dividing; the
destination is not written (R133, R134, R182). Every case falls through (R89). -/
def aluHandler (op : AluOp) (a b : Reg) (s : State) : Result :=
  match alu op (s.reg a) (s.reg b) with
  | some (.value y) => complete (s.setReg a y) .fallthrough
  | some (.flags f) => complete (s.setFl f) .fallthrough
  | none => complete (s.raiseFatal .divideByZero) .fallthrough

end Sys2Proof.Machine
end

