-- ==== Sys2Proof/Machine/Arithmetic.lean ====
section
/-! DEFINITION. The arithmetic group (44_arithmetic.md). No instruction of it writes `fl` (R26). -/

namespace Sys2Proof.Machine

/-- `ADD regA,regB` (R130). -/
def execAdd (opA opB : Byte) (s : State) : Result :=
  withRegs s opA opB fun a b => aluHandler .add a b s

/-- `SUB regA,regB` (R131). -/
def execSub (opA opB : Byte) (s : State) : Result :=
  withRegs s opA opB fun a b => aluHandler .sub a b s

/-- `MUL regA,regB` (R132). -/
def execMul (opA opB : Byte) (s : State) : Result :=
  withRegs s opA opB fun a b => aluHandler .mul a b s

/-- `DIV regA,regB` (R133); a zero divisor is the value of register B being 0 (D19, log 25). -/
def execDiv (opA opB : Byte) (s : State) : Result :=
  withRegs s opA opB fun a b => aluHandler .div a b s

/-- `MOD regA,regB` (R134). -/
def execMod (opA opB : Byte) (s : State) : Result :=
  withRegs s opA opB fun a b => aluHandler .mod a b s

/-- `INC reg` (R135). -/
def execInc (opA : Byte) (s : State) : Result :=
  withReg s opA fun a => aluHandler .inc a a s

/-- `DEC reg` (R136). -/
def execDec (opA : Byte) (s : State) : Result :=
  withReg s opA fun a => aluHandler .dec a a s

end Sys2Proof.Machine
end

