-- ==== Sys2Proof/Machine/Bitwise.lean ====
section
/-! DEFINITION. The bitwise group (45_bitwise.md). No instruction of it writes `fl` (R26). -/

namespace Sys2Proof.Machine

/-- `AND regA,regB` (R140). -/
def execAnd (opA opB : Byte) (s : State) : Result :=
  withRegs s opA opB fun a b => aluHandler .and a b s

/-- `OR regA,regB` (R141). -/
def execOr (opA opB : Byte) (s : State) : Result :=
  withRegs s opA opB fun a b => aluHandler .or a b s

/-- `XOR regA,regB` (R142). -/
def execXor (opA opB : Byte) (s : State) : Result :=
  withRegs s opA opB fun a b => aluHandler .xor a b s

/-- `NOT reg` (R143): the 8-bit complement under `NOT_POLICY = mask8`, the default; under `refuse` the model gives the
instruction no meaning (R112, C1, D6, log 6). -/
def execNot (opA : Byte) (s : State) : Result :=
  withReg s opA fun a =>
    match s.cfg.not with
    | .mask8 => aluHandler .not a a s
    | .refuse => .refused .notWithheld

end Sys2Proof.Machine
end

