-- ==== Sys2Proof/Machine/CompareBranch.lean ====
section
/-! DEFINITION. The compare and branch group (46_compare_branch.md). Jumps are register-indirect and absolute; the
register-index check is made whether or not a jump is taken (R152). -/

namespace Sys2Proof.Machine

/-- A conditional jump to the address in a register: `Jump(x[a])` if the condition holds, else `Fallthrough`. -/
def jumpIf (cond : Bool) (a : Reg) (s : State) : Result :=
  if cond then complete s (.jump (s.reg a)) else complete s .fallthrough

/-- `CMP regA,regB` (R150). -/
def execCmp (opA opB : Byte) (s : State) : Result :=
  withRegs s opA opB fun a b => aluHandler .cmp a b s

/-- `JMP reg` (R151). -/
def execJmp (opA : Byte) (s : State) : Result :=
  withReg s opA fun a => complete s (.jump (s.reg a))

/-- `JEQ reg` (R152). -/
def execJeq (opA : Byte) (s : State) : Result :=
  withReg s opA fun a => jumpIf (condEq s.fl) a s

/-- `JGT reg` (R153). -/
def execJgt (opA : Byte) (s : State) : Result :=
  withReg s opA fun a => jumpIf (condGt s.fl) a s

/-- `JLT reg` (R154). -/
def execJlt (opA : Byte) (s : State) : Result :=
  withReg s opA fun a => jumpIf (condLt s.fl) a s

/-- `JNE reg` (R155). -/
def execJne (opA : Byte) (s : State) : Result :=
  withReg s opA fun a => jumpIf (condNe s.fl) a s

end Sys2Proof.Machine
end

