-- ==== Sys2Proof/Machine/DataMovement.lean ====
section
/-! DEFINITION. The data movement group (43_data_movement.md). -/

namespace Sys2Proof.Machine

/-- `LDI reg,val` (R125): `x[a] <- opB`. -/
def execLdi (opA opB : Byte) (s : State) : Result :=
  withReg s opA fun a => complete (s.setReg a (immediate opB)) .fallthrough

/-- `LD regA,regB` (R126): `x[a] <- MemRead(x[b], 1)`. -/
def execLd (opA opB : Byte) (s : State) : Result :=
  withRegs s opA opB fun a b => complete (s.setReg a (s.load (s.indirect b))) .fallthrough

/-- `ST regA,regB` (R127): `MemWrite(x[a], 1, x[b])`; the first operand is the address. -/
def execSt (opA opB : Byte) (s : State) : Result :=
  withRegs s opA opB fun a b => complete (s.store (s.indirect a) (s.reg b)) .fallthrough

/-- `NOP` (R128). -/
def execNop (s : State) : Result := complete s .fallthrough

end Sys2Proof.Machine
end

