-- ==== Sys2Proof/Machine/Halt.lean ====
section
/-! DEFINITION. The halt group (42_halt.md). -/

namespace Sys2Proof.Machine

/-- `HLT` (R120): halt without a report; the advance still applies (D12, log 12). -/
def execHlt (s : State) : Result := complete s.halt .fallthrough

end Sys2Proof.Machine
end

