-- ==== Sys2Proof/Machine/Output.lean ====
section
/-! DEFINITION. The output group (49_output.md). -/

namespace Sys2Proof.Machine

/-- The text of the line that `Output(v)` hands over: the unsigned decimal numeral (R170, D14). -/
def outputLine (v : Byte) : String := toString v.toNat

/-- The lines of a PRN trace, one per `PRN` executed (R170). -/
def outputLines (out : List Byte) : List String := out.map outputLine

/-- `PRN reg` (R170). -/
def execPrn (opA : Byte) (s : State) : Result :=
  withReg s opA fun a => complete (s.emit (s.reg a)) .fallthrough

end Sys2Proof.Machine
end

