-- ==== Sys2Proof/Machine/Stack.lean ====
section
/-! DEFINITION. The stack group (47_stack.md). -/

namespace Sys2Proof.Machine

/-- `PUSH reg` (R162): the register is read after the decrement (D11, log 11). -/
def execPush (opA : Byte) (s : State) : Result :=
  withReg s opA fun a => complete (s.push fun s1 => s1.reg a) .fallthrough

/-- `POP reg` (R163): the register is written before the increment (D11, log 11). -/
def execPop (opA : Byte) (s : State) : Result :=
  withReg s opA fun a => complete (s.setReg a s.top).dropTop .fallthrough

end Sys2Proof.Machine
end

