-- ==== Sys2Proof/Machine/Subroutine.lean ====
section
/-! DEFINITION. The subroutine group (48_subroutine.md). -/

namespace Sys2Proof.Machine

/-- `CALL reg` (R165): push `pc + 2` (modulo 256 under `wrap`), then jump to the register, read after the push (D11,
log 11). -/
def execCall (opA : Byte) (s : State) : Result :=
  withReg s opA fun a =>
    let s1 := s.push fun s1 => s1.pc + 2
    complete s1 (.jump (s1.reg a))

/-- `RET` (R166): pop the return address and jump there. -/
def execRet (s : State) : Result := complete s.dropTop (.jump s.top)

end Sys2Proof.Machine
end

