-- ==== Sys2Proof/Machine/Dispatch.lean ====
section
/-! DEFINITION. The dispatch of an instruction to its handler (40_step_cycle.md R83, R86), one arm per constructor,
in the order of R66. -/

namespace Sys2Proof.Machine

def exec (i : Instr) (s : State) : Host.Outcome State Fault Refusal :=
  match i with
  | .hlt => Sys2Proof.Machine.execHlt s
  | .ldi opA opB => Sys2Proof.Machine.execLdi opA opB s
  | .ld opA opB => Sys2Proof.Machine.execLd opA opB s
  | .st opA opB => Sys2Proof.Machine.execSt opA opB s
  | .nop => Sys2Proof.Machine.execNop s
  | .add opA opB => Sys2Proof.Machine.execAdd opA opB s
  | .sub opA opB => Sys2Proof.Machine.execSub opA opB s
  | .mul opA opB => Sys2Proof.Machine.execMul opA opB s
  | .div opA opB => Sys2Proof.Machine.execDiv opA opB s
  | .mod opA opB => Sys2Proof.Machine.execMod opA opB s
  | .inc opA => Sys2Proof.Machine.execInc opA s
  | .dec opA => Sys2Proof.Machine.execDec opA s
  | .and opA opB => Sys2Proof.Machine.execAnd opA opB s
  | .or opA opB => Sys2Proof.Machine.execOr opA opB s
  | .xor opA opB => Sys2Proof.Machine.execXor opA opB s
  | .not opA => Sys2Proof.Machine.execNot opA s
  | .cmp opA opB => Sys2Proof.Machine.execCmp opA opB s
  | .jmp opA => Sys2Proof.Machine.execJmp opA s
  | .jeq opA => Sys2Proof.Machine.execJeq opA s
  | .jgt opA => Sys2Proof.Machine.execJgt opA s
  | .jlt opA => Sys2Proof.Machine.execJlt opA s
  | .jne opA => Sys2Proof.Machine.execJne opA s
  | .push opA => Sys2Proof.Machine.execPush opA s
  | .pop opA => Sys2Proof.Machine.execPop opA s
  | .call opA => Sys2Proof.Machine.execCall opA s
  | .ret => Sys2Proof.Machine.execRet s
  | .prn opA => Sys2Proof.Machine.execPrn opA s

end Sys2Proof.Machine
end

