-- ==== Sys2Proof/Machine/HostInterface.lean ====
section
/-! DEFINITION. What the host may do to the block outside a step (70_reset_and_hazards.md R200, R204 to R208). A run is:
reset, load, steps. The host is taken not to use these during a run (log 20). -/

namespace Sys2Proof.Machine

/-- `reset` (R200): every state element at its reset value, memory untouched; a new run begins, so both traces are
empty. It is the only way out of `halted` (R94). -/
def State.hostReset (s : State) : State := { State.resetWith s.cfg with mem := s.mem }

/-- `poke(address, value)` (R208): one byte of memory and nothing else. -/
def State.poke (s : State) (addr v : Byte) : State := s.store addr v

/-- The loader's writing of an image at consecutive addresses (R4, R205). DESIGN CHOICE (log 27): the spec does not say
where an image goes that runs past `0xFF`; here it goes on at address 0. -/
def State.pokes (s : State) (addr : Byte) (image : List Byte) : State :=
  match image with
  | [] => s
  | v :: rest => (s.poke addr v).pokes (addr + 1) rest

/-- The machine with parameters `c` when the first step begins, its memory being the launch argument `M0` (R206). -/
def State.launch (c : Config) (m0 : Byte → Byte) : State :=
  { State.resetWith c with mem := Memory.ofMap m0 }

end Sys2Proof.Machine
end

