-- ==== Sys2Proof/Machine/Step.lean ====
section
/-! DEFINITION. The step (40_step_cycle.md R91), one transition (R92), and the host's placing of one instruction. -/

namespace Sys2Proof.Machine

/-- One invocation of the engine (R80, R91). A halted engine does nothing (R94, R95, log 13). The checks come in the
order of R186: the boundary at entry, the invalid opcode, then those of the handler and its advance. -/
def step (s : State) : Host.Outcome State Fault Refusal :=
  match s.run with
  | .halted => .next s
  | .running =>
    if s.entryPasses then .fault (.undefinedBoundary s.pc)
    else match s.decoded with
      | .error _ => .next ((s.setIr s.fetchIr).raiseFatal .invalidOpcode)
      | .ok i => exec i (s.setIr s.fetchIr)

/-- `s` with the instruction whose bits are `w`, numbered as spec/opcode_table.json numbers them, stored at `pc`, `pc + 1`
and `pc + 2`, and running, so that the next step runs it (log 21). Past `0xFF` the bytes go on at address 0 (log 27). -/
def State.withFetchWord (s : State) (nbits w : Nat) : State :=
  { s.pokes s.pc [tableByte nbits w 0, tableByte nbits w 1, tableByte nbits w 2] with run := .running }

end Sys2Proof.Machine
end

