-- ==== Sys2Proof/Machine/Accesses.lean ====
section
/-! DEFINITION. What a step touches, as a function of the state it begins in: its memory accesses in their order
(20_memory.md R46, R91, R95) and the registers its handler reads and writes (10_state.md R15). -/

namespace Sys2Proof.Machine

/-- One access to the Memory collaborator; the size is always one byte (R44). -/
inductive Access where
  | read (addr : Byte)
  | write (addr v : Byte)
  deriving DecidableEq, Repr

/-- What `k` lists for the register an operand byte names, and nothing where it names none. -/
def State.named {α : Type} (s : State) (b : Byte) (k : Reg → List α) : List α :=
  match regIndex s.cfg.regidx b with
  | some r => k r
  | none => []

/-- The handler's own access, the fourth row of R46. -/
def handlerAccesses (i : Instr) (s : State) : List Access :=
  match i with
  | .ld opA opB => s.named opA fun _ => s.named opB fun b => [.read (s.indirect b)]
  | .st opA opB => s.named opA fun a => s.named opB fun b => [.write (s.indirect a) (s.reg b)]
  | .push opA => s.named opA fun a => [.write (s.reg sp - 1) ((s.setReg sp (s.reg sp - 1)).reg a)]
  | .call opA => s.named opA fun _ => [.write (s.reg sp - 1) (s.pc + 2)]
  | .pop opA => s.named opA fun _ => [.read (s.reg sp)]
  | .ret => [.read (s.reg sp)]
  | .hlt | .nop => []
  | .ldi _ _ | .add _ _ | .sub _ _ | .mul _ _ | .div _ _ | .mod _ _ => []
  | .and _ _ | .or _ _ | .xor _ _ | .cmp _ _ => []
  | .inc _ | .dec _ | .not _ | .jmp _ | .jeq _ | .jgt _ | .jlt _ | .jne _ | .prn _ => []

/-- The accesses of the step that begins here, in order (R46): the opcode byte, the two bytes after it, the handler's. -/
def State.accesses (s : State) : List Access :=
  match s.run with
  | .halted => []
  | .running =>
    if s.entryPasses then []
    else [.read s.pc, .read (s.pc + 1), .read (s.pc + 2)] ++
      match s.decoded with
      | .error _ => []
      | .ok i => handlerAccesses i s

/-- The registers a handler writes (R15). A `DIV` or `MOD` that halts on a zero divisor writes none. -/
def regWrites (i : Instr) (s : State) : List Reg :=
  match i with
  | .ldi opA _ | .ld opA _ | .add opA _ | .sub opA _ | .mul opA _ => s.named opA fun a => [a]
  | .and opA _ | .or opA _ | .xor opA _ => s.named opA fun a => [a]
  | .div opA opB | .mod opA opB =>
    s.named opA fun a => s.named opB fun b => if s.reg b = 0 then [] else [a]
  | .inc opA | .dec opA | .not opA => s.named opA fun a => [a]
  | .pop opA => s.named opA fun a => [a, sp]
  | .push _ | .call _ | .ret => [sp]
  | .hlt | .nop => []
  | .st _ _ | .cmp _ _ | .jmp _ | .jeq _ | .jgt _ | .jlt _ | .jne _ | .prn _ => []

/-- The registers a handler reads (R15). -/
def regReads (i : Instr) (s : State) : List Reg :=
  match i with
  | .ld _ opB => s.named opB fun b => [b]
  | .st opA opB | .add opA opB | .sub opA opB | .mul opA opB | .div opA opB | .mod opA opB
  | .and opA opB | .or opA opB | .xor opA opB | .cmp opA opB =>
    s.named opA fun a => s.named opB fun b => [a, b]
  | .inc opA | .dec opA | .not opA | .jmp opA | .prn opA => s.named opA fun a => [a]
  | .jeq opA => s.named opA fun a => if condEq s.fl then [a] else []
  | .jgt opA => s.named opA fun a => if condGt s.fl then [a] else []
  | .jlt opA => s.named opA fun a => if condLt s.fl then [a] else []
  | .jne opA => s.named opA fun a => if condNe s.fl then [a] else []
  | .push opA | .call opA => s.named opA fun a => [sp, a]
  | .pop _ | .ret => [sp]
  | .hlt | .nop | .ldi _ _ => []

end Sys2Proof.Machine
end

