-- ==== Sys2Proof/Safety.lean ====
section
/-! DEFINITION. What a legal state is, and when a step is sure to answer a next state. -/

namespace Sys2Proof.Machine

/-- The flags a run can hold (R27, R33, R113): none before the first `CMP`, then exactly one of E, G, L. Bits 7:3 are
always 0. -/
abbrev flagsLegal (fl : Byte) : Prop :=
  fl = 0b00000000 ∨ fl = 0b00000001 ∨ fl = 0b00000010 ∨ fl = 0b00000100

/-- The invariant of every run: the memory is in its canonical form, the flags register holds a legal value, and the
opcode map is one that R67 allows. -/
structure State.Inv (s : State) : Prop where
  mem   : Memory.wf s.mem
  flags : flagsLegal s.fl
  opc   : s.cfg.opc.Valid

/-- The advance of a handler that falls through here raises no fault (R87, R90 (b)). -/
abbrev State.advances (s : State) : Prop :=
  s.cfg.boundary = .wrap ∨ s.pc.toNat + 1 + opcount s.ir ≤ 0xFF

/-- The eager reads of a step that begins here raise no fault (R90 (a)). -/
abbrev State.enters (s : State) : Prop :=
  s.cfg.boundary = .wrap ∨ s.pc.toNat < 0xFE

/-- Operand byte `b` names register `r` on this machine (R63). -/
abbrev State.names (s : State) (b : Byte) (r : Reg) : Prop :=
  regIndex s.cfg.regidx b = some r

/-- The host runs at most `n` steps from `s` and the machine never stops in a fault or a refusal. -/
def SafeFor : Nat → State → Prop
  | 0, _ => True
  | n + 1, s => ∃ t, step s = .next t ∧ SafeFor n t

/-- An outcome with its next state, if it has one, changed by `f`. -/
def Result.onNext (f : State → State) : Result → Result
  | .next t => .next (f t)
  | .fault e => .fault e
  | .refused e => .refused e

end Sys2Proof.Machine
end

