-- ==== Sys2Proof/Certificates/Slice0/Obligations.lean ====
section
/-! DEFINITION. The statements about the machine. In each, `s.names b r` says that operand byte `b` names register `r`
under the machine's `REGIDX_POLICY`, and `s.advances` that falling through from `s` passes no boundary that faults; both
hold of every form the spec gives an effect. A next state is written in full, so what it leaves out is unchanged. -/

open Sys2Proof Sys2Proof.Machine

/-! ### Reset, memory, invariants -/

/-- R32: reset gives each state element the value of the table and does not touch memory. -/
def Obligations.ResetGivesTheTabledValues : Prop :=
  ∀ s : State,
    s.hostReset.reg 5 = 0x00 ∧ s.hostReset.reg 6 = 0x00 ∧ s.hostReset.reg 7 = 0xF4 ∧
    s.hostReset.reg 0 = s.cfg.resetGpr[0] ∧ s.hostReset.reg 1 = s.cfg.resetGpr[1] ∧
    s.hostReset.reg 2 = s.cfg.resetGpr[2] ∧ s.hostReset.reg 3 = s.cfg.resetGpr[3] ∧
    s.hostReset.reg 4 = s.cfg.resetGpr[4] ∧
    s.hostReset.pc = 0x00 ∧ s.hostReset.ir = s.cfg.resetIr ∧ s.hostReset.fl = 0x00 ∧
    s.hostReset.run = .running ∧ s.hostReset.mem = s.mem

/-- The state right after reset is a legal one. -/
def Obligations.ResetMeetsTheInvariant : Prop := State.reset.Inv

/-- R206: a launch with contents `M0` reads `M0` at all 256 addresses, whatever `M0` is; the rest is the reset state
(D15, log 15). -/
def Obligations.LaunchReadsTheGivenMemory : Prop :=
  ∀ (c : Config) (m0 : Byte → Byte),
    (∀ a, (State.launch c m0).load a = m0 a) ∧ Memory.wf (State.launch c m0).mem ∧
    ({ State.launch c m0 with mem := [] } : State) = State.resetWith c

/-- R42: a write changes the byte at its address and no other. -/
def Obligations.WriteChangesExactlyOneByte : Prop :=
  ∀ (m : Memory) (addr v a : Byte), Memory.wf m →
    Memory.read (Memory.write m addr v) a = if a = addr then v else Memory.read m a

/-- Memories in canonical form that read alike at every address are equal. -/
def Obligations.MemoryIsItsReading : Prop :=
  ∀ m n : Memory, Memory.wf m → Memory.wf n → (∀ a, Memory.read m a = Memory.read n a) → m = n

/-- A step from any legal state leaves a legal state: memory canonical, flags one of the four legal values (log 4),
opcode map still one that R67 allows. -/
def Obligations.StepKeepsTheInvariant : Prop :=
  ∀ s t : State, s.Inv → step s = .next t → t.Inv

/-! ### Encoding -/

/-- Decoding the bytes of any instruction gives it back under every opcode map that R67 allows, with every operand byte
at every value, whatever bytes follow (R70). The order of the operand bytes is decision D18 (log 17). -/
def Obligations.DecodeOfEncode : Prop :=
  ∀ t : Opc, t.Valid → ∀ (i : Instr) (x y : Byte),
    decode t ((encode t i).getD 0 x) ((encode t i).getD 1 x) ((encode t i).getD 2 y) = .ok i

/-- R60: three bytes that decode are the encoding of what they decode to, followed by bytes that are not part of the
instruction: opcode, then operand A, then operand B, in number what the opcode's top two bits say, at most two. -/
def Obligations.EncodeOfDecode : Prop :=
  ∀ t : Opc, t.Valid → ∀ (ir opA opB : Byte) (i : Instr),
    decode t ir opA opB = .ok i →
      opcount ir ≤ 2 ∧ encode t i = [ir, opA, opB].take (1 + opcount ir)

/-- Words of the default table decode to the instructions they stand for (D1, log 1). -/
def Obligations.TableWordsDecode : Prop :=
  decode defaultOpc 0b00000001 0xFF 0xFF = .ok .hlt ∧
  decode defaultOpc 0b10011001 0x00 0x08 = .ok (.ldi 0 8) ∧
  decode defaultOpc 0b10101010 0x00 0x01 = .ok (.mul 0 1) ∧
  decode defaultOpc 0b10110011 0x00 0x01 = .ok (.and 0 1) ∧
  decode defaultOpc 0b01010100 0x02 0xFF = .ok (.jgt 2) ∧
  decode defaultOpc 0b01001101 0x02 0xFF = .ok (.push 2) ∧
  decode defaultOpc 0b01001000 0x01 0xFF = .ok (.call 1) ∧
  decode defaultOpc 0b01000011 0x07 0xFF = .ok (.prn 7)

/-- R68, R69: under every opcode map that R67 allows, 256 - 27 = 229 bytes are invalid opcodes, those with top bits 11 among
them, and an invalid opcode decodes to no instruction, whatever follows it. -/
def Obligations.InvalidOpcodesNumber229 : Prop :=
  ∀ t : Opc, t.Valid →
    ((List.range 256).filter fun n => (t.lookup (BitVec.ofNat 8 n)).isNone).length = 229 ∧
    (∀ b : Byte, opcount b = 3 → t.lookup b = none) ∧
    ∀ b opA opB : Byte, t.lookup b = none → decode t b opA opB = .error (.invalidOpcode b)

/-! ### The step -/

/-- R81, R82, R86, R91: when the three bytes at the program counter decode to an instruction, the step writes the first of
them to `ir` and is the instruction's handler with its advance, which reads that `ir` (log 23). The premise `enters` and
the reduction of the operand addresses modulo 256 are decision D5 (R90, log 5). -/
def Obligations.StepRunsTheDecodedInstruction : Prop :=
  ∀ (s : State) (i : Instr), s.run = .running → s.enters →
    decode s.cfg.opc (Memory.read s.mem s.pc) (Memory.read s.mem (s.pc + 1)) (Memory.read s.mem (s.pc + 2)) = .ok i →
    step s = exec i { s with ir := Memory.read s.mem s.pc }

/-- R85: an invalid opcode is reported and halts the engine; `ir` keeps the byte and nothing else changes. The form
of the report is decision D14 (log 14). -/
def Obligations.InvalidOpcodeReportsAndHalts : Prop :=
  ∀ s : State, s.run = .running → s.enters →
    (∀ m : Mnemonic, s.cfg.opc.byteOf m ≠ Memory.read s.mem s.pc) →
    step s = .next { s with
      ir := Memory.read s.mem s.pc
      run := .halted
      rep := s.rep ++ [⟨.invalidOpcode, Memory.read s.mem s.pc⟩] }

/-- R94: a halted engine stays as it is, however often it is stepped. That a step of a halted engine answers the same
state is the reading of decision D13 (log 13). -/
def Obligations.HaltedIsTerminal : Prop :=
  ∀ (n : Nat) (s : State), s.run = .halted → Sys2Proof.core.run n s = .next s

/-- R93: reset runs at address 0, and a step of a running engine halts it in exactly three ways: an invalid opcode, `HLT`,
and `DIV` or `MOD` with a zero divisor. -/
def Obligations.ExactlyThreeWaysToHalt : Prop :=
  (∀ s : State, s.hostReset.run = .running ∧ s.hostReset.pc = 0) ∧
  ∀ s t : State, s.run = .running → step s = .next t →
    (t.run = .halted ↔
      (∃ e, s.decoded = .error e) ∨ s.decoded = .ok .hlt ∨
      ∃ (opA opB : Byte) (b : Reg), (s.decoded = .ok (.div opA opB) ∨ s.decoded = .ok (.mod opA opB)) ∧
        s.names opB b ∧ s.reg b = 0)

/-- R26: a step that changes `fl` runs a `CMP`. -/
def Obligations.OnlyCmpChangesFlags : Prop :=
  ∀ s t : State, step s = .next t → t.fl ≠ s.fl → ∃ opA opB, s.decoded = .ok (.cmp opA opB)

/-- R170: a `PRN` adds the value of its register to the PRN trace, and nothing else changes that trace. -/
def Obligations.OnlyPrnPrints : Prop :=
  ∀ s t : State, step s = .next t → t.out ≠ s.out →
    ∃ (opA : Byte) (a : Reg), s.decoded = .ok (.prn opA) ∧ s.names opA a ∧ t.out = s.out ++ [s.reg a]

/-- R184: a step adds a report exactly when it ends in `halted` for a reason other than `HLT`; the report holds the byte
fetched into `ir` and says which condition it was. -/
def Obligations.ReportsAreTheFatalHalts : Prop :=
  ∀ s t : State, s.run = .running → step s = .next t →
    (t.rep = s.rep ∧ (t.run = .running ∨ s.decoded = .ok .hlt)) ∨
    (t.run = .halted ∧ s.decoded ≠ .ok .hlt ∧
      ((∃ e, s.decoded = .error e) ∧ t.rep = s.rep ++ [⟨.invalidOpcode, s.fetchIr⟩] ∨
       (∃ i, s.decoded = .ok i) ∧ t.rep = s.rep ++ [⟨.divideByZero, s.fetchIr⟩]))

/-- R46, R42: after a step, the byte its write access names holds what was written, and every other byte reads as
before. The address and value are computed in the state the step begins in. -/
def Obligations.StepWritesOnlyItsAccess : Prop :=
  ∀ s t : State, Memory.wf s.mem → step s = .next t →
    (∀ a v, .write a v ∈ s.accesses → t.load a = v) ∧
    (∀ a, (∀ v, .write a v ∉ s.accesses) → t.load a = s.load a)

/-- R46: memory that a step does not list among its reads has no influence on it: two states that differ in memory only
there stop alike, or go on to states that differ in memory only. -/
def Obligations.StepReadsOnlyItsAccesses : Prop :=
  ∀ (s : State) (m : Memory),
    (∀ a, .read a ∈ s.accesses → Memory.read m a = s.load a) →
    Result.onNext (fun t => { t with mem := [] }) (step { s with mem := m }) =
      Result.onNext (fun t => { t with mem := [] }) (step s)

/-- R15: a handler leaves every register alone that the table of R15 does not list as written. -/
def Obligations.OnlyListedRegistersChange : Prop :=
  ∀ (i : Instr) (s t : State), exec i s = .next t → ∀ r, r ∉ regWrites i s → t.reg r = s.reg r

/-- R15: a register that the table of R15 lists neither as read nor as written has no influence: the instruction does the
same with any other value in it. -/
def Obligations.UnlistedRegistersHaveNoInfluence : Prop :=
  ∀ (i : Instr) (s : State) (r : Reg) (v : Byte), r ∉ regReads i s → r ∉ regWrites i s →
    exec i (s.setReg r v) = Result.onNext (fun t => t.setReg r v) (exec i s)

/-- R12, R13, R185: a step whose instruction does not name R5 or R6 neither reads nor changes it (D20, log 22). -/
def Obligations.ImAndIsHaveNoFunction : Prop :=
  ∀ (s : State) (r : Reg) (v : Byte), (r = 5 ∨ r = 6) →
    (∀ i, s.decoded = .ok i → ∀ b ∈ i.regOperands, ¬ s.names b r) →
    step (s.setReg r v) = Result.onNext (fun t => t.setReg r v) (step s)

/-- R24, R203: a step never changes the machine's parameters, and a step of a running engine leaves in `ir` the byte it
fetched. -/
def Obligations.ParametersAndIrAfterAStep : Prop :=
  ∀ s t : State, step s = .next t →
    t.cfg = s.cfg ∧ (s.run = .running → t.ir = s.fetchIr) ∧ (s.run = .halted → t.ir = s.ir)

/-- R33: what `ir` holds before a step cannot be observed. -/
def Obligations.OldIrIsUnobservable : Prop :=
  ∀ (s : State) (b : Byte), s.run = .running → step { s with ir := b } = step s

/-- R54: after an `ST`, the next fetch reads the stored byte where the address stored to is the new program counter, and
otherwise the byte that was there. -/
def Obligations.StoreIsSeenByTheNextFetch : Prop :=
  ∀ (s t : State) (opA opB : Byte) (a b : Reg), Memory.wf s.mem → s.names opA a → s.names opB b →
    exec (.st opA opB) s = .next t →
    t.fetchIr = if t.pc = s.reg a then s.reg b else s.load t.pc

/-! ### Where a step stops -/

/-- Decision D5 (log 5): under `BOUNDARY_POLICY = fault` a running engine raises `Undefined_Boundary` exactly when the step
begins at `0xFE` or above, or a three-byte instruction with readable registers stands at `0xFD`. -/
def Obligations.BoundaryFaultsExactly : Prop :=
  ∀ (s : State) (p : Byte), s.run = .running → s.cfg.boundary = .fault → s.cfg.opc.Valid →
    (step s = .fault (.undefinedBoundary p) ↔
      p = s.pc ∧ (0xFE ≤ s.pc.toNat ∨ (s.pc = 0xFD ∧ opcount s.fetchIr = 2 ∧
        ∃ i, s.decoded = .ok i ∧ ∀ b ∈ i.regOperands, ∃ r, s.names b r)))

/-- Decisions D10 and D17 (log 10, 19): under `REGIDX_POLICY = fault` the first register operand above 7, operand A before
operand B, is the fault of the instruction, whatever else the instruction would do. -/
def Obligations.BadRegisterByteFaults : Prop :=
  ∀ (i : Instr) (s : State) (b : Byte), s.cfg.regidx = .fault →
    i.regOperands.find? (fun b => !regInRange b) = some b →
    exec i s = .fault (.undefinedRegisterIndex b)

/-- R63: a byte below 8 is the index. Decision D10 (log 10): above 7 it names no register under `fault`, and its bits 2:0
name one under `mask3`. -/
def Obligations.RegisterByteMeaning : Prop :=
  ∀ (p : RegidxPolicy) (b : Byte),
    (b.toNat < 8 → ∃ r, regIndex p b = some r ∧ r.val = b.toNat) ∧
    (8 ≤ b.toNat → regIndex .fault b = none ∧
      ∃ r, regIndex .mask3 b = some r ∧ r.val = (b.extractLsb' 0 3).toNat)

/-- A step faults only in the two undefined conditions, under the policies that make them faults, and refuses only a `NOT`
under `NOT_POLICY = refuse` (log 5, 6, 10). -/
def Obligations.StopsOnlyWhereUndefined : Prop :=
  ∀ s : State,
    (∀ f, step s = .fault f →
      (f = .undefinedBoundary s.pc ∧ s.cfg.boundary = .fault) ∨
      ∃ b i, f = .undefinedRegisterIndex b ∧ s.cfg.regidx = .fault ∧ 8 ≤ b.toNat ∧
        s.decoded = .ok i ∧ b ∈ i.regOperands) ∧
    (∀ r, step s = .refused r →
      r = .notWithheld ∧ s.cfg.not = .refuse ∧ ∃ opA, s.decoded = .ok (.not opA))

/-- Under `wrap`, `mask3` and `mask8` the machine never stops: every step of every run from any state answers a next
state. -/
def Obligations.NothingStopsUnderWrapMask3Mask8 : Prop :=
  ∀ (n : Nat) (s : State), s.cfg.boundary = .wrap → s.cfg.regidx = .mask3 → s.cfg.not = .mask8 → SafeFor n s

/-- Under `NOT_POLICY = mask8` and whatever the boundary and register policies, a well-formed instruction below `0xFD`
always completes (log 5, 6, 10). -/
def Obligations.WellFormedStepCompletes : Prop :=
  ∀ (s : State) (i : Instr), s.run = .running → s.cfg.opc.Valid → s.cfg.not = .mask8 →
    s.pc.toNat < 0xFD → s.decoded = .ok i → i.wellFormed = true → ∃ t, step s = .next t

/-! ### The ALU -/

/-- R102, R103, R104, R107, R108: the arithmetic operations, as numbers modulo 256. -/
def Obligations.AluArithmeticIsModulo256 : Prop :=
  ∀ a b : Byte,
    alu .add a b = some (.value (BitVec.ofNat 8 ((a.toNat + b.toNat) % 256))) ∧
    alu .sub a b = some (.value (BitVec.ofNat 8 ((a.toNat + 256 - b.toNat) % 256))) ∧
    alu .mul a b = some (.value (BitVec.ofNat 8 (a.toNat * b.toNat % 256))) ∧
    alu .inc a b = some (.value (BitVec.ofNat 8 ((a.toNat + 1) % 256))) ∧
    alu .dec a b = some (.value (BitVec.ofNat 8 ((a.toNat + 255) % 256)))

/-- R109, R110, R111: the bitwise operations, bit by bit. -/
def Obligations.AluBitwiseIsBitByBit : Prop :=
  ∀ a b : Byte,
    (∃ y, alu .and a b = some (.value y) ∧ ∀ i < 8, y.getLsbD i = (a.getLsbD i && b.getLsbD i)) ∧
    (∃ y, alu .or a b = some (.value y) ∧ ∀ i < 8, y.getLsbD i = (a.getLsbD i || b.getLsbD i)) ∧
    (∃ y, alu .xor a b = some (.value y) ∧ ∀ i < 8, y.getLsbD i = (a.getLsbD i != b.getLsbD i))

/-- R105, R106 with decision D7 (log 7): quotient and remainder are the unsigned integer ones; with a zero divisor the ALU
is not evaluated. -/
def Obligations.AluDivModIsEuclidean : Prop :=
  ∀ a b : Byte,
    (b ≠ 0 → ∃ q r : Byte, alu .div a b = some (.value q) ∧ alu .mod a b = some (.value r) ∧
      a.toNat = b.toNat * q.toNat + r.toNat ∧ r.toNat < b.toNat) ∧
    (b = 0 → alu .div a b = none ∧ alu .mod a b = none)

/-- R113 with decision D8 (log 8): `CMP` sets exactly one of E, G, L, from an unsigned comparison of the first operand with
the second, and bits 7:3 are 0. -/
def Obligations.AluCompareSetsExactlyOne : Prop :=
  ∀ a b : Byte, ∃ f, alu .cmp a b = some (.flags f) ∧
    (flagE f = true ↔ a = b) ∧ (flagG f = true ↔ b.toNat < a.toNat) ∧ (flagL f = true ↔ a.toNat < b.toNat) ∧
    (f = 0b001 ∨ f = 0b010 ∨ f = 0b100)

/-! ### The instructions: the next state in full -/

/-- `HLT` (R120): halts, with the advance of decision D12 (log 12). -/
def Obligations.HltHalts : Prop :=
  ∀ s : State, s.advances →
    exec .hlt s = .next { s with run := .halted, pc := BitVec.ofNat 8 (s.pc.toNat + 1 + opcount s.ir) }

/-- `NOP` (R128): only the program counter moves. -/
def Obligations.NopOnlyAdvances : Prop :=
  ∀ s : State, s.advances →
    exec .nop s = .next { s with pc := BitVec.ofNat 8 (s.pc.toNat + 1 + opcount s.ir) }

/-- `LDI` (R125): the immediate goes to the register. -/
def Obligations.LdiLoadsTheImmediate : Prop :=
  ∀ (s : State) (opA opB : Byte) (a : Reg), s.names opA a → s.advances →
    exec (.ldi opA opB) s = .next { s with
      regs := s.regs.set a opB
      pc := BitVec.ofNat 8 (s.pc.toNat + 1 + opcount s.ir) }

/-- `LD` (R126): the byte at the address in register B goes to register A. -/
def Obligations.LdLoadsFromTheAddressInB : Prop :=
  ∀ (s : State) (opA opB : Byte) (a b : Reg), s.names opA a → s.names opB b → s.advances →
    exec (.ld opA opB) s = .next { s with
      regs := s.regs.set a (Memory.read s.mem s.regs[b])
      pc := BitVec.ofNat 8 (s.pc.toNat + 1 + opcount s.ir) }

/-- `ST` (R127): the value of register B is written at the address in register A; every other byte reads as before. -/
def Obligations.StStoresAtTheAddressInA : Prop :=
  ∀ (s : State) (opA opB : Byte) (a b : Reg), Memory.wf s.mem → s.names opA a → s.names opB b → s.advances →
    ∃ m, exec (.st opA opB) s = .next { s with
        mem := m
        pc := BitVec.ofNat 8 (s.pc.toNat + 1 + opcount s.ir) } ∧
      Memory.read m s.regs[a] = s.regs[b] ∧ ∀ x, x ≠ s.regs[a] → Memory.read m x = Memory.read s.mem x

/-- `ADD`, `SUB`, `MUL` (R130, R131, R132): register A receives the result modulo 256. -/
def Obligations.AddSubMulWriteTheResult : Prop :=
  ∀ (s : State) (opA opB : Byte) (a b : Reg), s.names opA a → s.names opB b → s.advances →
    exec (.add opA opB) s = .next { s with
      regs := s.regs.set a (BitVec.ofNat 8 ((s.regs[a].toNat + s.regs[b].toNat) % 256))
      pc := BitVec.ofNat 8 (s.pc.toNat + 1 + opcount s.ir) } ∧
    exec (.sub opA opB) s = .next { s with
      regs := s.regs.set a (BitVec.ofNat 8 ((s.regs[a].toNat + 256 - s.regs[b].toNat) % 256))
      pc := BitVec.ofNat 8 (s.pc.toNat + 1 + opcount s.ir) } ∧
    exec (.mul opA opB) s = .next { s with
      regs := s.regs.set a (BitVec.ofNat 8 (s.regs[a].toNat * s.regs[b].toNat % 256))
      pc := BitVec.ofNat 8 (s.pc.toNat + 1 + opcount s.ir) }

/-- `DIV`, `MOD` (R133, R134) with a divisor that is not zero: the unsigned integer quotient or remainder (D7, log 7). -/
def Obligations.DivModWriteTheResult : Prop :=
  ∀ (s : State) (opA opB : Byte) (a b : Reg), s.names opA a → s.names opB b → s.regs[b] ≠ 0 → s.advances →
    exec (.div opA opB) s = .next { s with
      regs := s.regs.set a (BitVec.ofNat 8 (s.regs[a].toNat / s.regs[b].toNat))
      pc := BitVec.ofNat 8 (s.pc.toNat + 1 + opcount s.ir) } ∧
    exec (.mod opA opB) s = .next { s with
      regs := s.regs.set a (BitVec.ofNat 8 (s.regs[a].toNat % s.regs[b].toNat))
      pc := BitVec.ofNat 8 (s.pc.toNat + 1 + opcount s.ir) }

/-- `DIV`, `MOD` (R133, R134, R182) with a zero divisor: `DivideByZero` is reported with the byte in `ir`, the engine
halts, no register is written, and the advance is made (D12, log 12). -/
def Obligations.ZeroDivisorReportsAndHalts : Prop :=
  ∀ (s : State) (opA opB : Byte) (a b : Reg), s.names opA a → s.names opB b → s.regs[b] = 0 → s.advances →
    ∀ i, (i = Instr.div opA opB ∨ i = Instr.mod opA opB) →
    exec i s = .next { s with
      run := .halted
      rep := s.rep ++ [⟨.divideByZero, s.ir⟩]
      pc := BitVec.ofNat 8 (s.pc.toNat + 1 + opcount s.ir) }

/-- `INC`, `DEC` (R135, R136): by one, modulo 256. -/
def Obligations.IncDecWrap : Prop :=
  ∀ (s : State) (opA : Byte) (a : Reg), s.names opA a → s.advances →
    exec (.inc opA) s = .next { s with
      regs := s.regs.set a (BitVec.ofNat 8 ((s.regs[a].toNat + 1) % 256))
      pc := BitVec.ofNat 8 (s.pc.toNat + 1 + opcount s.ir) } ∧
    exec (.dec opA) s = .next { s with
      regs := s.regs.set a (BitVec.ofNat 8 ((s.regs[a].toNat + 255) % 256))
      pc := BitVec.ofNat 8 (s.pc.toNat + 1 + opcount s.ir) }

/-- `AND`, `OR`, `XOR` (R140, R141, R142): register A receives the bitwise result. -/
def Obligations.AndOrXorWriteTheResult : Prop :=
  ∀ (s : State) (opA opB : Byte) (a b : Reg), s.names opA a → s.names opB b → s.advances →
    exec (.and opA opB) s = .next { s with
      regs := s.regs.set a (s.regs[a] &&& s.regs[b])
      pc := BitVec.ofNat 8 (s.pc.toNat + 1 + opcount s.ir) } ∧
    exec (.or opA opB) s = .next { s with
      regs := s.regs.set a (s.regs[a] ||| s.regs[b])
      pc := BitVec.ofNat 8 (s.pc.toNat + 1 + opcount s.ir) } ∧
    exec (.xor opA opB) s = .next { s with
      regs := s.regs.set a (s.regs[a] ^^^ s.regs[b])
      pc := BitVec.ofNat 8 (s.pc.toNat + 1 + opcount s.ir) }

/-- `NOT` (R143) with decision D6 (log 6): 255 minus the value under `mask8`; refused by name under `refuse`. -/
def Obligations.NotComplements : Prop :=
  ∀ (s : State) (opA : Byte) (a : Reg), s.names opA a →
    (s.cfg.not = .mask8 → s.advances →
      exec (.not opA) s = .next { s with
        regs := s.regs.set a (BitVec.ofNat 8 (255 - s.regs[a].toNat))
        pc := BitVec.ofNat 8 (s.pc.toNat + 1 + opcount s.ir) }) ∧
    (s.cfg.not = .refuse → exec (.not opA) s = .refused .notWithheld)

/-- `CMP` (R150): all of `fl` is written, from the unsigned comparison of the first operand with the second (D8, log 8), and
no register. -/
def Obligations.CmpWritesAllFlags : Prop :=
  ∀ (s : State) (opA opB : Byte) (a b : Reg), s.names opA a → s.names opB b → s.advances →
    exec (.cmp opA opB) s = .next { s with
      fl := if s.regs[a] = s.regs[b] then 0b00000001
            else if s.regs[b].toNat < s.regs[a].toNat then 0b00000010 else 0b00000100
      pc := BitVec.ofNat 8 (s.pc.toNat + 1 + opcount s.ir) }

/-- `JMP` (R151): the program counter is the register's value, at any address. -/
def Obligations.JmpJumps : Prop :=
  ∀ (s : State) (opA : Byte) (a : Reg), s.names opA a →
    exec (.jmp opA) s = .next { s with pc := s.regs[a] }

/-- `JEQ`, `JGT`, `JLT`, `JNE` (R152 to R155): jump to the register's value where E = 1, G = 1, L = 1, E = 0 (D9, log 9), and
fall through elsewhere. A jump that is taken makes no advance and needs none. -/
def Obligations.BranchesTestTheirFlag : Prop :=
  ∀ (s : State) (opA : Byte) (a : Reg), s.names opA a →
    (s.fl.getLsbD 0 = true → exec (.jeq opA) s = .next { s with pc := s.regs[a] }) ∧
    (s.fl.getLsbD 1 = true → exec (.jgt opA) s = .next { s with pc := s.regs[a] }) ∧
    (s.fl.getLsbD 2 = true → exec (.jlt opA) s = .next { s with pc := s.regs[a] }) ∧
    (s.fl.getLsbD 0 = false → exec (.jne opA) s = .next { s with pc := s.regs[a] }) ∧
    (s.advances →
      (s.fl.getLsbD 0 = false → exec (.jeq opA) s = .next { s with pc := BitVec.ofNat 8 (s.pc.toNat + 1 + opcount s.ir) }) ∧
      (s.fl.getLsbD 1 = false → exec (.jgt opA) s = .next { s with pc := BitVec.ofNat 8 (s.pc.toNat + 1 + opcount s.ir) }) ∧
      (s.fl.getLsbD 2 = false → exec (.jlt opA) s = .next { s with pc := BitVec.ofNat 8 (s.pc.toNat + 1 + opcount s.ir) }) ∧
      (s.fl.getLsbD 0 = true → exec (.jne opA) s = .next { s with pc := BitVec.ofNat 8 (s.pc.toNat + 1 + opcount s.ir) }))

/-- `PUSH` (R162): the stack pointer moves down by one, modulo 256, and the register is written where it then points; `R7`
pushes the decremented pointer (D11, log 11). -/
def Obligations.PushWritesBelowTheStack : Prop :=
  ∀ (s : State) (opA : Byte) (a : Reg), Memory.wf s.mem → s.names opA a → s.advances →
    ∃ m, exec (.push opA) s = .next { s with
        regs := s.regs.set 7 (s.regs[7] - 1)
        mem := m
        pc := BitVec.ofNat 8 (s.pc.toNat + 1 + opcount s.ir) } ∧
      Memory.read m (s.regs[7] - 1) = (if a = 7 then s.regs[7] - 1 else s.regs[a]) ∧
      ∀ x, x ≠ s.regs[7] - 1 → Memory.read m x = Memory.read s.mem x

/-- `POP` (R163): the register receives the byte at the stack pointer, which then moves up by one, modulo 256; `R7` is
loaded, then incremented (D11, log 11). -/
def Obligations.PopReadsTheTopOfTheStack : Prop :=
  ∀ (s : State) (opA : Byte) (a : Reg), s.names opA a → s.advances →
    exec (.pop opA) s = .next { s with
      regs := if a = 7 then s.regs.set 7 (Memory.read s.mem s.regs[7] + 1)
              else (s.regs.set a (Memory.read s.mem s.regs[7])).set 7 (s.regs[7] + 1)
      pc := BitVec.ofNat 8 (s.pc.toNat + 1 + opcount s.ir) }

/-- `CALL` (R165): `pc + 2` is pushed, then the program counter is the register's value; `R7` is read after the push (D11,
log 11). -/
def Obligations.CallPushesTheReturnAddress : Prop :=
  ∀ (s : State) (opA : Byte) (a : Reg), Memory.wf s.mem → s.names opA a →
    ∃ m, exec (.call opA) s = .next { s with
        regs := s.regs.set 7 (s.regs[7] - 1)
        mem := m
        pc := if a = 7 then s.regs[7] - 1 else s.regs[a] } ∧
      Memory.read m (s.regs[7] - 1) = s.pc + 2 ∧
      ∀ x, x ≠ s.regs[7] - 1 → Memory.read m x = Memory.read s.mem x

/-- `RET` (R166): the byte at the stack pointer is the new program counter, and the pointer moves up by one. -/
def Obligations.RetPopsTheProgramCounter : Prop :=
  ∀ s : State,
    exec .ret s = .next { s with regs := s.regs.set 7 (s.regs[7] + 1), pc := Memory.read s.mem s.regs[7] }

/-- `PRN` (R170): the register's value is added to the PRN trace, which stands in State by the model's choice (log 14);
only that and the program counter change. -/
def Obligations.PrnAppendsTheValue : Prop :=
  ∀ (s : State) (opA : Byte) (a : Reg), s.names opA a → s.advances →
    exec (.prn opA) s = .next { s with
      out := s.out ++ [s.regs[a]]
      pc := BitVec.ofNat 8 (s.pc.toNat + 1 + opcount s.ir) }

/-! ### Pairs of instructions -/

/-- R164: `PUSH` then `POP` of the same register restores every register, the stack pointer included, and leaves a copy of
what was pushed below the stack; `R7` included (D11, log 11). The fetch between them may put anything in `ir`. -/
def Obligations.PushThenPopRestores : Prop :=
  ∀ (s t u : State) (op ir : Byte) (a : Reg), Memory.wf s.mem → s.names op a →
    exec (.push op) s = .next t → exec (.pop op) { t with ir := ir } = .next u →
    u.regs = s.regs ∧ u.load (s.reg 7 - 1) = if a = 7 then s.reg 7 - 1 else s.reg a

/-- R167: a `RET` with the stack pointer the `CALL` left and the return byte untouched goes to the call's address plus 2 and
restores the stack pointer, whatever happened between. -/
def Obligations.CallThenRetReturns : Prop :=
  ∀ (s t u w : State) (op : Byte) (a : Reg), Memory.wf s.mem → s.names op a →
    exec (.call op) s = .next t → u.reg 7 = t.reg 7 → u.load (u.reg 7) = t.load (t.reg 7) →
    exec .ret u = .next w → w.pc = s.pc + 2 ∧ w.reg 7 = s.reg 7

/-- R208: `poke` writes one byte of memory and changes nothing else. -/
def Obligations.PokeWritesOneByteOnly : Prop :=
  ∀ (s : State) (addr v : Byte), Memory.wf s.mem →
    ({ s.poke addr v with mem := s.mem } : State) = s ∧ Memory.wf (s.poke addr v).mem ∧
    ∀ a, (s.poke addr v).load a = if a = addr then v else s.load a
end

