-- ==== Sys2Proof/Laws/Decode.lean ====
section
/-! SUPPORT. The dispatch table's lookup and the length of an encoding. -/

namespace Sys2Proof

/-- Every mnemonic is listed. -/
theorem Mnemonic.mem_all (m : Mnemonic) : m ∈ Mnemonic.all := by cases m <;> decide

/-- An opcode map that R67 allows is injective. -/
theorem Opc.Valid.injective {t : Opc} (h : t.Valid) {m n : Mnemonic} (e : t.byteOf m = t.byteOf n) : m = n :=
  h.1 m m.mem_all n n.mem_all e

/-- An opcode map that R67 allows carries the operand count in the top two bits. -/
theorem Opc.Valid.opcount {t : Opc} (h : t.Valid) (m : Mnemonic) :
    Sys2Proof.opcount (t.byteOf m) = m.format.operandCount :=
  h.2 m m.mem_all

/-- The lookup answers a mnemonic only for its own opcode. -/
theorem Opc.byteOf_of_lookup {t : Opc} {b : Byte} {m : Mnemonic} (h : t.lookup b = some m) : t.byteOf m = b := by
  simpa using List.find?_some h

/-- The lookup misses exactly the bytes that are no mnemonic's opcode (R68). -/
theorem Opc.lookup_eq_none {t : Opc} {b : Byte} : t.lookup b = none ↔ ∀ m, t.byteOf m ≠ b := by
  simp only [Opc.lookup, List.find?_eq_none, beq_iff_eq]
  exact ⟨fun h m => h m m.mem_all, fun h m _ => h m⟩

/-- The lookup finds the mnemonic whose opcode the byte is. -/
theorem Opc.Valid.lookup_byteOf {t : Opc} (h : t.Valid) (m : Mnemonic) : t.lookup (t.byteOf m) = some m := by
  cases e : t.lookup (t.byteOf m) with
  | none => exact absurd rfl (Opc.lookup_eq_none.1 e m)
  | some n => rw [h.injective (Opc.byteOf_of_lookup e)]

/-- A format names at most two operand bytes (R62). -/
theorem Format.operandCount_le (f : Format) : f.operandCount ≤ 2 := by cases f <;> decide

/-- What decoding can answer. -/
theorem decode_cases (t : Opc) (ir opA opB : Byte) :
    (t.lookup ir = none ∧ decode t ir opA opB = .error (.invalidOpcode ir)) ∨
    ∃ m, t.lookup ir = some m ∧ decode t ir opA opB = .ok (m.toInstr opA opB) := by
  unfold decode
  cases h : t.lookup ir with
  | none => simp
  | some m => simp

/-- The instruction made from a mnemonic has that mnemonic. -/
@[simp] theorem Mnemonic.toInstr_mnemonic (m : Mnemonic) (opA opB : Byte) : (m.toInstr opA opB).mnemonic = m := by
  cases m <;> rfl

/-- An instruction has as many operand bytes as its format names. -/
theorem Instr.operands_length (i : Instr) : i.operands.length = i.mnemonic.format.operandCount := by
  cases i <;> rfl

/-- The register operands of an instruction are among its operand bytes. -/
theorem Instr.regOperands_subset (i : Instr) : i.regOperands ⊆ i.operands := by
  cases i <;> simp [Instr.regOperands, Instr.mnemonic, Mnemonic.format, Instr.operands]

end Sys2Proof
end

