-- ==== Sys2Proof/Laws/State.lean ====
section
/-! SUPPORT. One lemma per field per update of State, so that no later proof unfolds a record update. -/

namespace Sys2Proof.Machine

variable (s : State)

/-! ### setReg -/

@[simp] theorem State.setReg_cfg (r : Reg) (v : Byte) : (s.setReg r v).cfg = s.cfg := rfl
@[simp] theorem State.setReg_regs (r : Reg) (v : Byte) : (s.setReg r v).regs = s.regs.set r v := rfl
@[simp] theorem State.setReg_pc (r : Reg) (v : Byte) : (s.setReg r v).pc = s.pc := rfl
@[simp] theorem State.setReg_ir (r : Reg) (v : Byte) : (s.setReg r v).ir = s.ir := rfl
@[simp] theorem State.setReg_fl (r : Reg) (v : Byte) : (s.setReg r v).fl = s.fl := rfl
@[simp] theorem State.setReg_run (r : Reg) (v : Byte) : (s.setReg r v).run = s.run := rfl
@[simp] theorem State.setReg_mem (r : Reg) (v : Byte) : (s.setReg r v).mem = s.mem := rfl
@[simp] theorem State.setReg_out (r : Reg) (v : Byte) : (s.setReg r v).out = s.out := rfl
@[simp] theorem State.setReg_rep (r : Reg) (v : Byte) : (s.setReg r v).rep = s.rep := rfl

/-! ### setPc -/

@[simp] theorem State.setPc_cfg (b : Byte) : (s.setPc b).cfg = s.cfg := rfl
@[simp] theorem State.setPc_regs (b : Byte) : (s.setPc b).regs = s.regs := rfl
@[simp] theorem State.setPc_pc (b : Byte) : (s.setPc b).pc = b := rfl
@[simp] theorem State.setPc_ir (b : Byte) : (s.setPc b).ir = s.ir := rfl
@[simp] theorem State.setPc_fl (b : Byte) : (s.setPc b).fl = s.fl := rfl
@[simp] theorem State.setPc_run (b : Byte) : (s.setPc b).run = s.run := rfl
@[simp] theorem State.setPc_mem (b : Byte) : (s.setPc b).mem = s.mem := rfl
@[simp] theorem State.setPc_out (b : Byte) : (s.setPc b).out = s.out := rfl
@[simp] theorem State.setPc_rep (b : Byte) : (s.setPc b).rep = s.rep := rfl

/-! ### setIr -/

@[simp] theorem State.setIr_cfg (b : Byte) : (s.setIr b).cfg = s.cfg := rfl
@[simp] theorem State.setIr_regs (b : Byte) : (s.setIr b).regs = s.regs := rfl
@[simp] theorem State.setIr_pc (b : Byte) : (s.setIr b).pc = s.pc := rfl
@[simp] theorem State.setIr_ir (b : Byte) : (s.setIr b).ir = b := rfl
@[simp] theorem State.setIr_fl (b : Byte) : (s.setIr b).fl = s.fl := rfl
@[simp] theorem State.setIr_run (b : Byte) : (s.setIr b).run = s.run := rfl
@[simp] theorem State.setIr_mem (b : Byte) : (s.setIr b).mem = s.mem := rfl
@[simp] theorem State.setIr_out (b : Byte) : (s.setIr b).out = s.out := rfl
@[simp] theorem State.setIr_rep (b : Byte) : (s.setIr b).rep = s.rep := rfl

/-! ### setFl -/

@[simp] theorem State.setFl_cfg (f : Byte) : (s.setFl f).cfg = s.cfg := rfl
@[simp] theorem State.setFl_regs (f : Byte) : (s.setFl f).regs = s.regs := rfl
@[simp] theorem State.setFl_pc (f : Byte) : (s.setFl f).pc = s.pc := rfl
@[simp] theorem State.setFl_ir (f : Byte) : (s.setFl f).ir = s.ir := rfl
@[simp] theorem State.setFl_fl (f : Byte) : (s.setFl f).fl = f := rfl
@[simp] theorem State.setFl_run (f : Byte) : (s.setFl f).run = s.run := rfl
@[simp] theorem State.setFl_mem (f : Byte) : (s.setFl f).mem = s.mem := rfl
@[simp] theorem State.setFl_out (f : Byte) : (s.setFl f).out = s.out := rfl
@[simp] theorem State.setFl_rep (f : Byte) : (s.setFl f).rep = s.rep := rfl

/-! ### halt -/

@[simp] theorem State.halt_cfg : (s.halt).cfg = s.cfg := rfl
@[simp] theorem State.halt_regs : (s.halt).regs = s.regs := rfl
@[simp] theorem State.halt_pc : (s.halt).pc = s.pc := rfl
@[simp] theorem State.halt_ir : (s.halt).ir = s.ir := rfl
@[simp] theorem State.halt_fl : (s.halt).fl = s.fl := rfl
@[simp] theorem State.halt_run : (s.halt).run = .halted := rfl
@[simp] theorem State.halt_mem : (s.halt).mem = s.mem := rfl
@[simp] theorem State.halt_out : (s.halt).out = s.out := rfl
@[simp] theorem State.halt_rep : (s.halt).rep = s.rep := rfl

/-! ### emit -/

@[simp] theorem State.emit_cfg (v : Byte) : (s.emit v).cfg = s.cfg := rfl
@[simp] theorem State.emit_regs (v : Byte) : (s.emit v).regs = s.regs := rfl
@[simp] theorem State.emit_pc (v : Byte) : (s.emit v).pc = s.pc := rfl
@[simp] theorem State.emit_ir (v : Byte) : (s.emit v).ir = s.ir := rfl
@[simp] theorem State.emit_fl (v : Byte) : (s.emit v).fl = s.fl := rfl
@[simp] theorem State.emit_run (v : Byte) : (s.emit v).run = s.run := rfl
@[simp] theorem State.emit_mem (v : Byte) : (s.emit v).mem = s.mem := rfl
@[simp] theorem State.emit_out (v : Byte) : (s.emit v).out = s.out ++ [v] := rfl
@[simp] theorem State.emit_rep (v : Byte) : (s.emit v).rep = s.rep := rfl

/-! ### store -/

@[simp] theorem State.store_cfg (addr v : Byte) : (s.store addr v).cfg = s.cfg := rfl
@[simp] theorem State.store_regs (addr v : Byte) : (s.store addr v).regs = s.regs := rfl
@[simp] theorem State.store_pc (addr v : Byte) : (s.store addr v).pc = s.pc := rfl
@[simp] theorem State.store_ir (addr v : Byte) : (s.store addr v).ir = s.ir := rfl
@[simp] theorem State.store_fl (addr v : Byte) : (s.store addr v).fl = s.fl := rfl
@[simp] theorem State.store_run (addr v : Byte) : (s.store addr v).run = s.run := rfl
@[simp] theorem State.store_mem (addr v : Byte) : (s.store addr v).mem = Memory.write s.mem addr v := rfl
@[simp] theorem State.store_out (addr v : Byte) : (s.store addr v).out = s.out := rfl
@[simp] theorem State.store_rep (addr v : Byte) : (s.store addr v).rep = s.rep := rfl

/-! ### raiseFatal -/

@[simp] theorem State.raiseFatal_cfg (k : ReportKind) : (s.raiseFatal k).cfg = s.cfg := rfl
@[simp] theorem State.raiseFatal_regs (k : ReportKind) : (s.raiseFatal k).regs = s.regs := rfl
@[simp] theorem State.raiseFatal_pc (k : ReportKind) : (s.raiseFatal k).pc = s.pc := rfl
@[simp] theorem State.raiseFatal_ir (k : ReportKind) : (s.raiseFatal k).ir = s.ir := rfl
@[simp] theorem State.raiseFatal_fl (k : ReportKind) : (s.raiseFatal k).fl = s.fl := rfl
@[simp] theorem State.raiseFatal_run (k : ReportKind) : (s.raiseFatal k).run = .halted := rfl
@[simp] theorem State.raiseFatal_mem (k : ReportKind) : (s.raiseFatal k).mem = s.mem := rfl
@[simp] theorem State.raiseFatal_out (k : ReportKind) : (s.raiseFatal k).out = s.out := rfl
@[simp] theorem State.raiseFatal_rep (k : ReportKind) : (s.raiseFatal k).rep = s.rep ++ [⟨k, s.ir⟩] := rfl

/-! ### Reading a register after an update -/

theorem State.setReg_reg (r q : Reg) (v : Byte) : (s.setReg r v).reg q = if q = r then v else s.reg q := by
  simp only [State.reg, State.setReg, Fin.getElem_fin, Vector.getElem_set]
  by_cases h : q = r
  · simp [h]
  · have : ¬ (r : Nat) = q := fun e => h (Fin.ext e.symm)
    simp [h, this]

@[simp] theorem State.setReg_reg_same (r : Reg) (v : Byte) : (s.setReg r v).reg r = v := by
  simp [State.setReg_reg]

theorem State.setReg_reg_other {r q : Reg} (h : q ≠ r) (v : Byte) : (s.setReg r v).reg q = s.reg q := by
  simp [State.setReg_reg, h]

@[simp] theorem State.setPc_reg (b : Byte) (q : Reg) : (s.setPc b).reg q = s.reg q := rfl
@[simp] theorem State.setIr_reg (b : Byte) (q : Reg) : (s.setIr b).reg q = s.reg q := rfl
@[simp] theorem State.setFl_reg (f : Byte) (q : Reg) : (s.setFl f).reg q = s.reg q := rfl
@[simp] theorem State.halt_reg (q : Reg) : (s.halt).reg q = s.reg q := rfl
@[simp] theorem State.emit_reg (v : Byte) (q : Reg) : (s.emit v).reg q = s.reg q := rfl
@[simp] theorem State.store_reg (addr v : Byte) (q : Reg) : (s.store addr v).reg q = s.reg q := rfl
@[simp] theorem State.raiseFatal_reg (k : ReportKind) (q : Reg) : (s.raiseFatal k).reg q = s.reg q := rfl

/-- Register files that agree at every index are equal. -/
theorem regs_ext {p q : Vector Byte 8} (h : ∀ r : Reg, p[r] = q[r]) : p = q :=
  Vector.ext fun i hi => h ⟨i, hi⟩

/-- Writing back what a register holds changes nothing. -/
theorem State.setReg_self (r : Reg) : s.setReg r (s.reg r) = s := by
  simp [State.setReg, State.reg]

/-- The later of two writes to one register wins. -/
theorem State.setReg_setReg (r : Reg) (v w : Byte) : (s.setReg r v).setReg r w = s.setReg r w := by
  simp [State.setReg]

/-- Writes to two registers may be made in either order. -/
theorem State.setReg_comm {r q : Reg} (h : q ≠ r) (v w : Byte) :
    (s.setReg r v).setReg q w = (s.setReg q w).setReg r v := by
  have : (r : Nat) ≠ q := fun e => h (Fin.ext e.symm)
  simp [State.setReg, Vector.set_comm _ _ this]

end Sys2Proof.Machine
end

