-- ==== Sys2Proof/Laws/Memory.lean ====
section
/-! SUPPORT. The memory: what a read answers after a write, that every operation keeps the canonical form, that a
canonical memory is determined by its readings, and that every total map is the reading of some memory (R41, R42, R206). -/

namespace Sys2Proof.Machine

@[simp] theorem Memory.read_nil (a : Byte) : Memory.read [] a = unlistedByte := rfl

theorem Memory.read_cons (c : Host.Cell) (m : Memory) (a : Byte) :
    Memory.read (c :: m) a = if c.1 = a.toNat then c.2 else Memory.read m a := rfl

@[simp] theorem Memory.wf_nil : Memory.wf [] := ⟨List.Pairwise.nil, by simp⟩

theorem Memory.wf_cons {c : Host.Cell} {m : Memory} :
    Memory.wf (c :: m) ↔ (∀ d ∈ m, c.1 < d.1) ∧ c.1 < 256 ∧ c.2 ≠ unlistedByte ∧ Memory.wf m := by
  simp only [Memory.wf, List.pairwise_cons, List.forall_mem_cons]
  tauto

/-- Nothing is listed at an address below the first entry. -/
theorem Memory.read_below {m : Memory} {a : Byte} (h : ∀ d ∈ m, a.toNat < d.1) :
    Memory.read m a = unlistedByte := by
  induction m with
  | nil => rfl
  | cons c m ih =>
    have hc := h c (by simp)
    rw [Memory.read_cons, if_neg (by omega)]
    exact ih fun d hd => h d (by simp [hd])

/-- Where an entry of a written memory comes from. -/
theorem Memory.mem_write {m : Memory} {addr v : Byte} {d : Host.Cell} (h : d ∈ Memory.write m addr v) :
    d ∈ m ∨ (d = (addr.toNat, v) ∧ v ≠ unlistedByte) := by
  induction m with
  | nil => simp only [Memory.write] at h; split at h <;> simp_all
  | cons c m ih =>
    obtain ⟨k, w⟩ := c
    simp only [Memory.write] at h
    split at h
    · split at h
      · exact .inl h
      · rcases List.mem_cons.1 h with h | h
        · exact .inr ⟨h, by assumption⟩
        · exact .inl h
    · split at h
      · split at h
        · exact .inl (by simp [h])
        · rcases List.mem_cons.1 h with h | h
          · exact .inr ⟨by simp_all, by assumption⟩
          · exact .inl (by simp [h])
      · rcases List.mem_cons.1 h with h | h
        · simp [h]
        · rcases ih h with h | h <;> simp [h]

/-- A write keeps the canonical form. -/
theorem Memory.write_wf {m : Memory} (hm : Memory.wf m) (addr v : Byte) : Memory.wf (Memory.write m addr v) := by
  induction m with
  | nil =>
    have := addr.isLt
    simp only [Memory.write]
    split
    · exact Memory.wf_nil
    · exact Memory.wf_cons.2 ⟨by simp, this, by assumption, Memory.wf_nil⟩
  | cons c m ih =>
    obtain ⟨k, w⟩ := c
    obtain ⟨hlt, hk, hw, hm'⟩ := Memory.wf_cons.1 hm
    have := addr.isLt
    simp only [Memory.write]
    split
    · split
      · exact hm
      · refine Memory.wf_cons.2 ⟨?_, by simpa using this, by assumption, hm⟩
        intro d hd
        rcases List.mem_cons.1 hd with rfl | hd
        · assumption
        · have := hlt d hd; simp only at *; omega
    · split
      · split
        · exact hm'
        · exact Memory.wf_cons.2 ⟨hlt, hk, by assumption, hm'⟩
      · refine Memory.wf_cons.2 ⟨?_, hk, hw, ih hm'⟩
        intro d hd
        rcases Memory.mem_write hd with hd | ⟨rfl, -⟩
        · exact hlt d hd
        · simp only; omega

/-- A write is read back. -/
theorem Memory.read_write_same {m : Memory} (hm : Memory.wf m) (addr v : Byte) :
    Memory.read (Memory.write m addr v) addr = v := by
  induction m with
  | nil => simp only [Memory.write]; split <;> simp_all [Memory.read_cons]
  | cons c m ih =>
    obtain ⟨k, w⟩ := c
    obtain ⟨hlt, -, -, hm'⟩ := Memory.wf_cons.1 hm
    simp only [Memory.write]
    split
    · split
      · subst v
        apply Memory.read_below
        intro d hd
        rcases List.mem_cons.1 hd with rfl | hd
        · assumption
        · have := hlt d hd; simp only at *; omega
      · simp [Memory.read_cons]
    · split
      · split
        · subst v
          exact Memory.read_below fun d hd => by have := hlt d hd; simp only at *; omega
        · simp [Memory.read_cons, *]
      · rw [Memory.read_cons, if_neg (by simp only; omega)]
        exact ih hm'

/-- A write leaves every other address alone. -/
theorem Memory.read_write_other (m : Memory) {addr a : Byte} (v : Byte) (h : a ≠ addr) :
    Memory.read (Memory.write m addr v) a = Memory.read m a := by
  have hn : addr.toNat ≠ a.toNat := fun e => h (BitVec.eq_of_toNat_eq e.symm)
  induction m with
  | nil => simp only [Memory.write]; split <;> simp [Memory.read_cons, hn]
  | cons c m ih =>
    obtain ⟨k, w⟩ := c
    simp only [Memory.write]
    split
    · split <;> simp [Memory.read_cons, hn]
    · split
      · have hk : k ≠ a.toNat := by omega
        split <;> simp [Memory.read_cons, hk]
      · simp [Memory.read_cons, ih]

/-- At an address below every entry but the first, a memory reads its first entry or nothing. -/
theorem Memory.read_head {c : Host.Cell} {m : Memory} {a : Byte} (h : Memory.wf (c :: m)) (ha : a.toNat ≤ c.1) :
    Memory.read (c :: m) a = if c.1 = a.toNat then c.2 else unlistedByte := by
  obtain ⟨hlt, -, -, -⟩ := Memory.wf_cons.1 h
  rw [Memory.read_cons]
  split
  · rfl
  · exact Memory.read_below fun d hd => by have := hlt d hd; omega

/-- Every entry that `Memory.ofMap` lists lies in a range of addresses and holds the map's byte there. -/
theorem Memory.mem_ofMap {m0 : Byte → Byte} {d : Host.Cell} (h : d ∈ Memory.ofMap m0) :
    d.1 < 256 ∧ d.2 = m0 (BitVec.ofNat 8 d.1) ∧ d.2 ≠ unlistedByte := by
  simp only [Memory.ofMap, List.mem_filterMap, List.mem_range] at h
  obtain ⟨n, hn, h⟩ := h
  split at h
  · cases h
  · cases h; exact ⟨hn, rfl, by assumption⟩

/-- The memory of a total map is in canonical form. -/
theorem Memory.ofMap_wf (m0 : Byte → Byte) : Memory.wf (Memory.ofMap m0) := by
  refine ⟨?_, fun d hd => ⟨(Memory.mem_ofMap hd).1, (Memory.mem_ofMap hd).2.2⟩⟩
  rw [Memory.ofMap, List.pairwise_filterMap]
  refine List.pairwise_lt_range.imp fun hab x hx y hy => ?_
  split at hx <;> split at hy <;> simp_all
  subst hx hy
  exact hab

end Sys2Proof.Machine
end

