-- ==== Sys2Proof/Laws/Ops.lean ====
section
/-! SUPPORT. One lemma for each shared operation that says everything it can do. -/

namespace Sys2Proof.Machine

/-! ### Loads, pushes and pops -/

@[simp] theorem State.load_setReg (s : State) (r : Reg) (v a : Byte) : (s.setReg r v).load a = s.load a := rfl

@[simp] theorem State.top_eq (s : State) : s.top = Memory.read s.mem (s.reg sp) := rfl

@[simp] theorem State.indirect_eq (s : State) (r : Reg) : s.indirect r = s.reg r := rfl

@[simp] theorem immediate_eq (b : Byte) : immediate b = b := rfl

/-- A push is a decrement and a store at the new stack pointer. -/
theorem State.push_eq (s : State) (value : State → Byte) :
    s.push value =
      (s.setReg sp (s.reg sp - 1)).store (s.reg sp - 1) (value (s.setReg sp (s.reg sp - 1))) := rfl

/-- A store changes the memory and nothing else. -/
theorem State.store_eq (s : State) (addr v : Byte) : s.store addr v = { s with mem := Memory.write s.mem addr v } := rfl

/-! ### The advance -/

/-- Falling through where the advance raises no fault. -/
theorem complete_fallthrough {h : State} (ha : h.advances) :
    complete h .fallthrough = .next (h.setPc (BitVec.ofNat 8 (h.pc.toNat + 1 + opcount h.ir))) := by
  have : h.advancePasses = false := by
    rcases ha with ha | ha
    · simp [State.advancePasses, ha]
    · have : ¬ 0xFF < h.advanceSum := by simpa [State.advanceSum] using ha
      simp [State.advancePasses, this]
  simp [complete, this, State.advanceSum]

/-- Everything the end of a step can do. -/
theorem complete_cases (h : State) (n : Next) :
    (∃ p, complete h n = .next (h.setPc p) ∧ (n = .jump p ∨
      n = .fallthrough ∧ h.advances ∧ p = BitVec.ofNat 8 (h.pc.toNat + 1 + opcount h.ir))) ∨
    (complete h n = .fault (.undefinedBoundary h.pc) ∧ n = .fallthrough ∧ h.cfg.boundary = .fault ∧
      0xFF < h.pc.toNat + 1 + opcount h.ir) := by
  cases n with
  | jump p => exact .inl ⟨p, rfl, .inl rfl⟩
  | fallthrough =>
    by_cases ha : h.advances
    · exact .inl ⟨_, complete_fallthrough ha, .inr ⟨rfl, ha, rfl⟩⟩
    · simp only [State.advances, not_or, not_le] at ha
      have hb : h.cfg.boundary = .fault := by cases e : h.cfg.boundary <;> simp_all
      refine .inr ⟨?_, rfl, hb, ha.2⟩
      simp [complete, State.advancePasses, State.advanceSum, ha.2, hb]

/-! ### Register operands -/

/-- A byte below 8 is the index, whatever the policy (R63). -/
theorem regIndex_of_lt {b : Byte} (h : b.toNat < 8) (p : RegidxPolicy) : regIndex p b = some ⟨b.toNat, h⟩ := by
  simp [regIndex, h]

/-- A byte that names no register is above 7, and the policy is `fault` (R63). -/
theorem regIndex_eq_none {p : RegidxPolicy} {b : Byte} : regIndex p b = none ↔ p = .fault ∧ 8 ≤ b.toNat := by
  unfold regIndex
  split
  · simp; omega
  · cases p <;> simp; omega

theorem withReg_of_names {s : State} {b : Byte} {r : Reg} (h : s.names b r) (k : Reg → Result) :
    withReg s b k = k r := by
  simp only [State.names] at h
  simp [withReg, h]

theorem withReg_of_none {s : State} {b : Byte} (h : regIndex s.cfg.regidx b = none) (k : Reg → Result) :
    withReg s b k = .fault (.undefinedRegisterIndex b) := by
  simp [withReg, h]

theorem withRegs_of_names {s : State} {opA opB : Byte} {a b : Reg} (ha : s.names opA a) (hb : s.names opB b)
    (k : Reg → Reg → Result) : withRegs s opA opB k = k a b := by
  simp [withRegs, withReg_of_names ha, withReg_of_names hb]

/-- Everything a register operand can do: name a register, or fault. -/
theorem withReg_cases (s : State) (b : Byte) (k : Reg → Result) :
    (∃ r, s.names b r ∧ withReg s b k = k r) ∨
    (regIndex s.cfg.regidx b = none ∧ withReg s b k = .fault (.undefinedRegisterIndex b)) := by
  cases h : regIndex s.cfg.regidx b with
  | none => exact .inr ⟨rfl, withReg_of_none h k⟩
  | some r => exact .inl ⟨r, h, withReg_of_names h k⟩

/-- Everything two register operands can do; operand A faults first. -/
theorem withRegs_cases (s : State) (opA opB : Byte) (k : Reg → Reg → Result) :
    (∃ a b, s.names opA a ∧ s.names opB b ∧ withRegs s opA opB k = k a b) ∨
    (regIndex s.cfg.regidx opA = none ∧ withRegs s opA opB k = .fault (.undefinedRegisterIndex opA)) ∨
    ((∃ a, s.names opA a) ∧ regIndex s.cfg.regidx opB = none ∧
      withRegs s opA opB k = .fault (.undefinedRegisterIndex opB)) := by
  rcases withReg_cases s opA (fun a => withReg s opB fun b => k a b) with ⟨a, ha, e⟩ | ⟨ha, e⟩
  · rcases withReg_cases s opB (fun b => k a b) with ⟨b, hb, e'⟩ | ⟨hb, e'⟩
    · exact .inl ⟨a, b, ha, hb, e.trans e'⟩
    · exact .inr (.inr ⟨⟨a, ha⟩, hb, e.trans e'⟩)
  · exact .inr (.inl ⟨ha, e⟩)

@[simp] theorem State.named_of_names {α : Type} {s : State} {b : Byte} {r : Reg} (h : s.names b r) (k : Reg → List α) :
    s.named b k = k r := by
  simp only [State.names] at h
  simp [State.named, h]

/-! ### The ALU -/

/-- A zero divisor is the only input the ALU has no answer for (R105, R106, U4). -/
theorem alu_eq_none {op : AluOp} {a b : Byte} : alu op a b = none ↔ (op = .div ∨ op = .mod) ∧ b = 0 := by
  have hb : b.toNat = 0 ↔ b = 0 := by
    constructor
    · intro h; exact BitVec.eq_of_toNat_eq (by simpa using h)
    · rintro rfl; rfl
  cases op <;> simp [alu, hb]

/-- `CMP` is the only operation that puts out flags (R100). -/
theorem alu_eq_flags {op : AluOp} {a b f : Byte} (h : alu op a b = some (.flags f)) :
    op = .cmp ∧ f = compareFlags a b := by
  cases op <;> simp only [alu] at h
  case cmp => simp_all
  all_goals first | (split at h <;> simp at h) | simp at h

/-- Everything an ALU handler can do. -/
theorem aluHandler_cases (op : AluOp) (a b : Reg) (s : State) :
    (∃ y, alu op (s.reg a) (s.reg b) = some (.value y) ∧
      aluHandler op a b s = complete (s.setReg a y) .fallthrough) ∨
    (op = .cmp ∧ aluHandler op a b s = complete (s.setFl (compareFlags (s.reg a) (s.reg b))) .fallthrough) ∨
    ((op = .div ∨ op = .mod) ∧ s.reg b = 0 ∧
      aluHandler op a b s = complete (s.raiseFatal .divideByZero) .fallthrough) := by
  cases h : alu op (s.reg a) (s.reg b) with
  | none =>
    obtain ⟨ho, hb⟩ := alu_eq_none.1 h
    exact .inr (.inr ⟨ho, hb, by simp [aluHandler, h]⟩)
  | some o =>
    cases o with
    | value y => exact .inl ⟨y, rfl, by simp [aluHandler, h]⟩
    | flags f =>
      obtain ⟨rfl, rfl⟩ := alu_eq_flags h
      exact .inr (.inl ⟨rfl, by simp [aluHandler, h]⟩)

/-- The flags a comparison leaves are legal. -/
theorem compareFlags_legal (a b : Byte) : flagsLegal (compareFlags a b) := by
  unfold compareFlags
  split
  · simp [flagsLegal]
  · split <;> simp [flagsLegal]

end Sys2Proof.Machine
end

