-- ==== Sys2Proof/Laws/Exec.lean ====
section
/-! SUPPORT. What executing an instruction can do, once for all instructions (`exec_cases`): a register operand that names
no register, the withheld `NOT`, or a handler's state and result. Facts about every instruction follow by cases on
`Handled`, without unfolding a meaning again. -/

namespace Sys2Proof.Machine

/-- `Handled s i h n`: in state `s` the handler of `i` leaves state `h` and answers `n`, before the advance (R84). -/
inductive Handled (s : State) : Instr → State → Next → Prop
  | hlt : Handled s .hlt s.halt .fallthrough
  | nop : Handled s .nop s .fallthrough
  | ldi {opA opB a} (ha : s.names opA a) : Handled s (.ldi opA opB) (s.setReg a opB) .fallthrough
  | ld {opA opB a b} (ha : s.names opA a) (hb : s.names opB b) :
      Handled s (.ld opA opB) (s.setReg a (s.load (s.reg b))) .fallthrough
  | st {opA opB a b} (ha : s.names opA a) (hb : s.names opB b) :
      Handled s (.st opA opB) (s.store (s.reg a) (s.reg b)) .fallthrough
  | add {opA opB a b y} (ha : s.names opA a) (hb : s.names opB b) (hy : alu .add (s.reg a) (s.reg b) = some (.value y)) :
      Handled s (.add opA opB) (s.setReg a y) .fallthrough
  | sub {opA opB a b y} (ha : s.names opA a) (hb : s.names opB b) (hy : alu .sub (s.reg a) (s.reg b) = some (.value y)) :
      Handled s (.sub opA opB) (s.setReg a y) .fallthrough
  | mul {opA opB a b y} (ha : s.names opA a) (hb : s.names opB b) (hy : alu .mul (s.reg a) (s.reg b) = some (.value y)) :
      Handled s (.mul opA opB) (s.setReg a y) .fallthrough
  | and {opA opB a b y} (ha : s.names opA a) (hb : s.names opB b) (hy : alu .and (s.reg a) (s.reg b) = some (.value y)) :
      Handled s (.and opA opB) (s.setReg a y) .fallthrough
  | or {opA opB a b y} (ha : s.names opA a) (hb : s.names opB b) (hy : alu .or (s.reg a) (s.reg b) = some (.value y)) :
      Handled s (.or opA opB) (s.setReg a y) .fallthrough
  | xor {opA opB a b y} (ha : s.names opA a) (hb : s.names opB b) (hy : alu .xor (s.reg a) (s.reg b) = some (.value y)) :
      Handled s (.xor opA opB) (s.setReg a y) .fallthrough
  | div {opA opB a b y} (ha : s.names opA a) (hb : s.names opB b) (h0 : s.reg b ≠ 0)
      (hy : alu .div (s.reg a) (s.reg b) = some (.value y)) : Handled s (.div opA opB) (s.setReg a y) .fallthrough
  | divZero {opA opB a b} (ha : s.names opA a) (hb : s.names opB b) (h0 : s.reg b = 0) :
      Handled s (.div opA opB) (s.raiseFatal .divideByZero) .fallthrough
  | mod {opA opB a b y} (ha : s.names opA a) (hb : s.names opB b) (h0 : s.reg b ≠ 0)
      (hy : alu .mod (s.reg a) (s.reg b) = some (.value y)) : Handled s (.mod opA opB) (s.setReg a y) .fallthrough
  | modZero {opA opB a b} (ha : s.names opA a) (hb : s.names opB b) (h0 : s.reg b = 0) :
      Handled s (.mod opA opB) (s.raiseFatal .divideByZero) .fallthrough
  | inc {opA a y} (ha : s.names opA a) (hy : alu .inc (s.reg a) (s.reg a) = some (.value y)) :
      Handled s (.inc opA) (s.setReg a y) .fallthrough
  | dec {opA a y} (ha : s.names opA a) (hy : alu .dec (s.reg a) (s.reg a) = some (.value y)) :
      Handled s (.dec opA) (s.setReg a y) .fallthrough
  | not {opA a} (ha : s.names opA a) (hp : s.cfg.not = .mask8) :
      Handled s (.not opA) (s.setReg a (~~~ s.reg a)) .fallthrough
  | cmp {opA opB a b} (ha : s.names opA a) (hb : s.names opB b) :
      Handled s (.cmp opA opB) (s.setFl (compareFlags (s.reg a) (s.reg b))) .fallthrough
  | jmp {opA a} (ha : s.names opA a) : Handled s (.jmp opA) s (.jump (s.reg a))
  | jeqTaken {opA a} (ha : s.names opA a) (hc : condEq s.fl = true) : Handled s (.jeq opA) s (.jump (s.reg a))
  | jeqNot {opA a} (ha : s.names opA a) (hc : condEq s.fl = false) : Handled s (.jeq opA) s .fallthrough
  | jgtTaken {opA a} (ha : s.names opA a) (hc : condGt s.fl = true) : Handled s (.jgt opA) s (.jump (s.reg a))
  | jgtNot {opA a} (ha : s.names opA a) (hc : condGt s.fl = false) : Handled s (.jgt opA) s .fallthrough
  | jltTaken {opA a} (ha : s.names opA a) (hc : condLt s.fl = true) : Handled s (.jlt opA) s (.jump (s.reg a))
  | jltNot {opA a} (ha : s.names opA a) (hc : condLt s.fl = false) : Handled s (.jlt opA) s .fallthrough
  | jneTaken {opA a} (ha : s.names opA a) (hc : condNe s.fl = true) : Handled s (.jne opA) s (.jump (s.reg a))
  | jneNot {opA a} (ha : s.names opA a) (hc : condNe s.fl = false) : Handled s (.jne opA) s .fallthrough
  | push {opA a} (ha : s.names opA a) : Handled s (.push opA) (s.push fun s1 => s1.reg a) .fallthrough
  | pop {opA a} (ha : s.names opA a) : Handled s (.pop opA) (s.setReg a s.top).dropTop .fallthrough
  | call {opA a} (ha : s.names opA a) :
      Handled s (.call opA) (s.push fun s1 => s1.pc + 2) (.jump ((s.push fun s1 => s1.pc + 2).reg a))
  | ret : Handled s .ret s.dropTop (.jump s.top)
  | prn {opA a} (ha : s.names opA a) : Handled s (.prn opA) (s.emit (s.reg a)) .fallthrough

/-- Executing a handled instruction is the handler's state and result, completed. -/
theorem Handled.exec_eq {s h : State} {i : Instr} {n : Next} (H : Handled s i h n) : exec i s = complete h n := by
  cases H with
  | hlt => rfl
  | nop => rfl
  | ret => rfl
  | ldi ha => exact withReg_of_names ha _
  | jmp ha => exact withReg_of_names ha _
  | push ha => exact withReg_of_names ha _
  | pop ha => exact withReg_of_names ha _
  | call ha => exact withReg_of_names ha _
  | prn ha => exact withReg_of_names ha _
  | ld ha hb => exact withRegs_of_names ha hb _
  | st ha hb => exact withRegs_of_names ha hb _
  | cmp ha hb => exact withRegs_of_names ha hb _
  | add ha hb hy => exact (withRegs_of_names ha hb _).trans (by simp [aluHandler, hy])
  | sub ha hb hy => exact (withRegs_of_names ha hb _).trans (by simp [aluHandler, hy])
  | mul ha hb hy => exact (withRegs_of_names ha hb _).trans (by simp [aluHandler, hy])
  | and ha hb hy => exact (withRegs_of_names ha hb _).trans (by simp [aluHandler, hy])
  | or ha hb hy => exact (withRegs_of_names ha hb _).trans (by simp [aluHandler, hy])
  | xor ha hb hy => exact (withRegs_of_names ha hb _).trans (by simp [aluHandler, hy])
  | div ha hb h0 hy => exact (withRegs_of_names ha hb _).trans (by simp [aluHandler, hy])
  | divZero ha hb h0 => exact (withRegs_of_names ha hb _).trans (by simp [aluHandler, alu, h0])
  | mod ha hb h0 hy => exact (withRegs_of_names ha hb _).trans (by simp [aluHandler, hy])
  | modZero ha hb h0 => exact (withRegs_of_names ha hb _).trans (by simp [aluHandler, alu, h0])
  | inc ha hy => exact (withReg_of_names ha _).trans (by simp [aluHandler, hy])
  | dec ha hy => exact (withReg_of_names ha _).trans (by simp [aluHandler, hy])
  | not ha hp => exact (withReg_of_names ha _).trans (by simp [hp, aluHandler, alu])
  | jeqTaken ha hc => exact (withReg_of_names ha _).trans (by simp [jumpIf, hc])
  | jeqNot ha hc => exact (withReg_of_names ha _).trans (by simp [jumpIf, hc])
  | jgtTaken ha hc => exact (withReg_of_names ha _).trans (by simp [jumpIf, hc])
  | jgtNot ha hc => exact (withReg_of_names ha _).trans (by simp [jumpIf, hc])
  | jltTaken ha hc => exact (withReg_of_names ha _).trans (by simp [jumpIf, hc])
  | jltNot ha hc => exact (withReg_of_names ha _).trans (by simp [jumpIf, hc])
  | jneTaken ha hc => exact (withReg_of_names ha _).trans (by simp [jumpIf, hc])
  | jneNot ha hc => exact (withReg_of_names ha _).trans (by simp [jumpIf, hc])

/-- An instruction whose register operands all name registers is handled, unless it is a `NOT` that is withheld. -/
theorem handled_of_names {s : State} {i : Instr} (hr : ∀ b ∈ i.regOperands, ∃ r, s.names b r)
    (hn : s.cfg.not = .mask8 ∨ ∀ opA, i ≠ .not opA) : ∃ h n, Handled s i h n := by
  cases i with
  | hlt => exact ⟨_, _, .hlt⟩
  | nop => exact ⟨_, _, .nop⟩
  | ret => exact ⟨_, _, .ret⟩
  | ldi opA opB =>
    obtain ⟨a, ha⟩ := hr opA (by simp [Instr.regOperands, Instr.mnemonic, Mnemonic.format, Instr.operands])
    exact ⟨_, _, .ldi ha⟩
  | inc opA =>
    obtain ⟨a, ha⟩ := hr opA (by simp [Instr.regOperands, Instr.mnemonic, Mnemonic.format, Instr.operands])
    exact ⟨_, _, .inc ha rfl⟩
  | dec opA =>
    obtain ⟨a, ha⟩ := hr opA (by simp [Instr.regOperands, Instr.mnemonic, Mnemonic.format, Instr.operands])
    exact ⟨_, _, .dec ha rfl⟩
  | not opA =>
    obtain ⟨a, ha⟩ := hr opA (by simp [Instr.regOperands, Instr.mnemonic, Mnemonic.format, Instr.operands])
    exact ⟨_, _, .not ha (hn.resolve_right fun h => h opA rfl)⟩
  | jmp opA =>
    obtain ⟨a, ha⟩ := hr opA (by simp [Instr.regOperands, Instr.mnemonic, Mnemonic.format, Instr.operands])
    exact ⟨_, _, .jmp ha⟩
  | jeq opA =>
    obtain ⟨a, ha⟩ := hr opA (by simp [Instr.regOperands, Instr.mnemonic, Mnemonic.format, Instr.operands])
    cases hc : condEq s.fl with
    | true => exact ⟨_, _, .jeqTaken ha hc⟩
    | false => exact ⟨_, _, .jeqNot ha hc⟩
  | jgt opA =>
    obtain ⟨a, ha⟩ := hr opA (by simp [Instr.regOperands, Instr.mnemonic, Mnemonic.format, Instr.operands])
    cases hc : condGt s.fl with
    | true => exact ⟨_, _, .jgtTaken ha hc⟩
    | false => exact ⟨_, _, .jgtNot ha hc⟩
  | jlt opA =>
    obtain ⟨a, ha⟩ := hr opA (by simp [Instr.regOperands, Instr.mnemonic, Mnemonic.format, Instr.operands])
    cases hc : condLt s.fl with
    | true => exact ⟨_, _, .jltTaken ha hc⟩
    | false => exact ⟨_, _, .jltNot ha hc⟩
  | jne opA =>
    obtain ⟨a, ha⟩ := hr opA (by simp [Instr.regOperands, Instr.mnemonic, Mnemonic.format, Instr.operands])
    cases hc : condNe s.fl with
    | true => exact ⟨_, _, .jneTaken ha hc⟩
    | false => exact ⟨_, _, .jneNot ha hc⟩
  | push opA =>
    obtain ⟨a, ha⟩ := hr opA (by simp [Instr.regOperands, Instr.mnemonic, Mnemonic.format, Instr.operands])
    exact ⟨_, _, .push ha⟩
  | pop opA =>
    obtain ⟨a, ha⟩ := hr opA (by simp [Instr.regOperands, Instr.mnemonic, Mnemonic.format, Instr.operands])
    exact ⟨_, _, .pop ha⟩
  | call opA =>
    obtain ⟨a, ha⟩ := hr opA (by simp [Instr.regOperands, Instr.mnemonic, Mnemonic.format, Instr.operands])
    exact ⟨_, _, .call ha⟩
  | prn opA =>
    obtain ⟨a, ha⟩ := hr opA (by simp [Instr.regOperands, Instr.mnemonic, Mnemonic.format, Instr.operands])
    exact ⟨_, _, .prn ha⟩
  | ld opA opB =>
    obtain ⟨a, ha⟩ := hr opA (by simp [Instr.regOperands, Instr.mnemonic, Mnemonic.format, Instr.operands])
    obtain ⟨b, hb⟩ := hr opB (by simp [Instr.regOperands, Instr.mnemonic, Mnemonic.format, Instr.operands])
    exact ⟨_, _, .ld ha hb⟩
  | st opA opB =>
    obtain ⟨a, ha⟩ := hr opA (by simp [Instr.regOperands, Instr.mnemonic, Mnemonic.format, Instr.operands])
    obtain ⟨b, hb⟩ := hr opB (by simp [Instr.regOperands, Instr.mnemonic, Mnemonic.format, Instr.operands])
    exact ⟨_, _, .st ha hb⟩
  | cmp opA opB =>
    obtain ⟨a, ha⟩ := hr opA (by simp [Instr.regOperands, Instr.mnemonic, Mnemonic.format, Instr.operands])
    obtain ⟨b, hb⟩ := hr opB (by simp [Instr.regOperands, Instr.mnemonic, Mnemonic.format, Instr.operands])
    exact ⟨_, _, .cmp ha hb⟩
  | add opA opB =>
    obtain ⟨a, ha⟩ := hr opA (by simp [Instr.regOperands, Instr.mnemonic, Mnemonic.format, Instr.operands])
    obtain ⟨b, hb⟩ := hr opB (by simp [Instr.regOperands, Instr.mnemonic, Mnemonic.format, Instr.operands])
    exact ⟨_, _, .add ha hb rfl⟩
  | sub opA opB =>
    obtain ⟨a, ha⟩ := hr opA (by simp [Instr.regOperands, Instr.mnemonic, Mnemonic.format, Instr.operands])
    obtain ⟨b, hb⟩ := hr opB (by simp [Instr.regOperands, Instr.mnemonic, Mnemonic.format, Instr.operands])
    exact ⟨_, _, .sub ha hb rfl⟩
  | mul opA opB =>
    obtain ⟨a, ha⟩ := hr opA (by simp [Instr.regOperands, Instr.mnemonic, Mnemonic.format, Instr.operands])
    obtain ⟨b, hb⟩ := hr opB (by simp [Instr.regOperands, Instr.mnemonic, Mnemonic.format, Instr.operands])
    exact ⟨_, _, .mul ha hb rfl⟩
  | and opA opB =>
    obtain ⟨a, ha⟩ := hr opA (by simp [Instr.regOperands, Instr.mnemonic, Mnemonic.format, Instr.operands])
    obtain ⟨b, hb⟩ := hr opB (by simp [Instr.regOperands, Instr.mnemonic, Mnemonic.format, Instr.operands])
    exact ⟨_, _, .and ha hb rfl⟩
  | or opA opB =>
    obtain ⟨a, ha⟩ := hr opA (by simp [Instr.regOperands, Instr.mnemonic, Mnemonic.format, Instr.operands])
    obtain ⟨b, hb⟩ := hr opB (by simp [Instr.regOperands, Instr.mnemonic, Mnemonic.format, Instr.operands])
    exact ⟨_, _, .or ha hb rfl⟩
  | xor opA opB =>
    obtain ⟨a, ha⟩ := hr opA (by simp [Instr.regOperands, Instr.mnemonic, Mnemonic.format, Instr.operands])
    obtain ⟨b, hb⟩ := hr opB (by simp [Instr.regOperands, Instr.mnemonic, Mnemonic.format, Instr.operands])
    exact ⟨_, _, .xor ha hb rfl⟩
  | div opA opB =>
    obtain ⟨a, ha⟩ := hr opA (by simp [Instr.regOperands, Instr.mnemonic, Mnemonic.format, Instr.operands])
    obtain ⟨b, hb⟩ := hr opB (by simp [Instr.regOperands, Instr.mnemonic, Mnemonic.format, Instr.operands])
    by_cases h0 : s.reg b = 0
    · exact ⟨_, _, .divZero ha hb h0⟩
    · exact ⟨_, _, .div ha hb h0 (if_neg fun e => h0 (BitVec.eq_of_toNat_eq (by simpa using e)))⟩
  | mod opA opB =>
    obtain ⟨a, ha⟩ := hr opA (by simp [Instr.regOperands, Instr.mnemonic, Mnemonic.format, Instr.operands])
    obtain ⟨b, hb⟩ := hr opB (by simp [Instr.regOperands, Instr.mnemonic, Mnemonic.format, Instr.operands])
    by_cases h0 : s.reg b = 0
    · exact ⟨_, _, .modZero ha hb h0⟩
    · exact ⟨_, _, .mod ha hb h0 (if_neg fun e => h0 (BitVec.eq_of_toNat_eq (by simpa using e)))⟩

/-- A register operand that names no register is a fault of every instruction that has it, operand A before operand B
(R63, R186). -/
theorem exec_of_unnamed {s : State} {i : Instr} {b : Byte}
    (hb : i.regOperands.find? (fun b => (regIndex s.cfg.regidx b).isNone) = some b) :
    exec i s = .fault (.undefinedRegisterIndex b) := by
  have two : ∀ (opA opB : Byte) (k : Reg → Reg → Result),
      [opA, opB].find? (fun b => (regIndex s.cfg.regidx b).isNone) = some b →
      withRegs s opA opB k = .fault (.undefinedRegisterIndex b) := by
    intro opA opB k hf
    rcases withRegs_cases s opA opB k with ⟨a, c, ha, hc, e⟩ | ⟨ha, e⟩ | ⟨⟨a, ha⟩, hc, e⟩
    · simp_all
    · simp_all
    · simp_all
  have one : ∀ (opA : Byte) (k : Reg → Result),
      [opA].find? (fun b => (regIndex s.cfg.regidx b).isNone) = some b →
      withReg s opA k = .fault (.undefinedRegisterIndex b) := by
    intro opA k hf
    rcases withReg_cases s opA k with ⟨a, ha, e⟩ | ⟨ha, e⟩
    · simp_all
    · simp_all
  cases i
  case hlt | nop | ret => simp [Instr.regOperands, Instr.mnemonic, Mnemonic.format, Instr.operands] at hb
  case ld | st | add | sub | mul | div | mod | and | or | xor | cmp => exact two _ _ _ hb
  case ldi | inc | dec | not | jmp | jeq | jgt | jlt | jne | push | pop | call | prn => exact one _ _ hb

/-- Everything executing an instruction can do. -/
theorem exec_cases (i : Instr) (s : State) :
    (∃ h n, Handled s i h n ∧ exec i s = complete h n) ∨
    (∃ b ∈ i.regOperands, regIndex s.cfg.regidx b = none ∧ exec i s = .fault (.undefinedRegisterIndex b)) ∨
    (∃ opA, i = .not opA ∧ s.cfg.not = .refuse ∧ exec i s = .refused .notWithheld) := by
  cases hf : i.regOperands.find? (fun b => (regIndex s.cfg.regidx b).isNone) with
  | some b =>
    refine .inr (.inl ⟨b, List.mem_of_find?_eq_some hf, ?_, exec_of_unnamed hf⟩)
    simpa using List.find?_some hf
  | none =>
    have hr : ∀ b ∈ i.regOperands, ∃ r, s.names b r := by
      intro b hb
      have := List.find?_eq_none.1 hf b hb
      exact Option.ne_none_iff_exists'.1 (by simpa using this)
    by_cases hn : s.cfg.not = .mask8 ∨ ∀ opA, i ≠ .not opA
    · obtain ⟨h, n, H⟩ := handled_of_names hr hn
      exact .inl ⟨h, n, H, H.exec_eq⟩
    · simp only [not_or, not_forall, not_not] at hn
      obtain ⟨hp, opA, rfl⟩ := hn
      obtain ⟨a, ha⟩ := hr opA (by simp [Instr.regOperands, Instr.mnemonic, Mnemonic.format, Instr.operands])
      have hp' : s.cfg.not = .refuse := by cases e : s.cfg.not <;> simp_all
      exact .inr (.inr ⟨opA, rfl, hp', (withReg_of_names ha _).trans (by simp [hp'])⟩)

/-- An instruction that answers a next state was handled, and the next state is the handler's with the new `pc`. -/
theorem exec_next {i : Instr} {s t : State} (e : exec i s = .next t) :
    ∃ h n p, Handled s i h n ∧ t = h.setPc p ∧ (n = .jump p ∨
      n = .fallthrough ∧ h.advances ∧ p = BitVec.ofNat 8 (h.pc.toNat + 1 + opcount h.ir)) := by
  rcases exec_cases i s with ⟨h, n, H, e'⟩ | ⟨b, -, -, e'⟩ | ⟨_, -, -, e'⟩
  · rcases complete_cases h n with ⟨p, e'', hp⟩ | ⟨e'', -⟩
    · rw [e', e''] at e
      cases e
      exact ⟨h, n, p, H, rfl, hp⟩
    · rw [e', e''] at e; cases e
  · rw [e'] at e; cases e
  · rw [e'] at e; cases e

/-- No handler changes the parameters, `pc` or `ir`; the advance alone moves `pc` (R21, R24). -/
theorem Handled.keeps {s h : State} {i : Instr} {n : Next} (H : Handled s i h n) :
    h.cfg = s.cfg ∧ h.pc = s.pc ∧ h.ir = s.ir := by
  cases H <;> exact ⟨rfl, rfl, rfl⟩

end Sys2Proof.Machine
end

