-- ==== Sys2Proof/Laws/PerInstr.lean ====
section
/-! SUPPORT. One lemma per constructor of `Instr` for each family of statements about instructions as syntax. -/

namespace Sys2Proof.Laws.EncodingLength

/-- An instruction's encoding is one byte longer than the count in its opcode's top two bits says (R60, R61). -/
def Statement (i : Instr) : Prop :=
  ∀ t : Opc, t.Valid → (encode t i).length = 1 + opcount (t.byteOf i.mnemonic)

/-- The case of any instruction, from its number of operand bytes. -/
theorem of_operands (i : Instr) : Statement i := fun t h => by
  simp only [encode, List.length_cons, Instr.operands_length, h.opcount]
  omega

theorem hlt : Statement .hlt := of_operands _
theorem ldi (opA opB : Byte) : Statement (.ldi opA opB) := of_operands _
theorem ld (opA opB : Byte) : Statement (.ld opA opB) := of_operands _
theorem st (opA opB : Byte) : Statement (.st opA opB) := of_operands _
theorem nop : Statement .nop := of_operands _
theorem add (opA opB : Byte) : Statement (.add opA opB) := of_operands _
theorem sub (opA opB : Byte) : Statement (.sub opA opB) := of_operands _
theorem mul (opA opB : Byte) : Statement (.mul opA opB) := of_operands _
theorem div (opA opB : Byte) : Statement (.div opA opB) := of_operands _
theorem mod (opA opB : Byte) : Statement (.mod opA opB) := of_operands _
theorem inc (opA : Byte) : Statement (.inc opA) := of_operands _
theorem dec (opA : Byte) : Statement (.dec opA) := of_operands _
theorem and (opA opB : Byte) : Statement (.and opA opB) := of_operands _
theorem or (opA opB : Byte) : Statement (.or opA opB) := of_operands _
theorem xor (opA opB : Byte) : Statement (.xor opA opB) := of_operands _
theorem not (opA : Byte) : Statement (.not opA) := of_operands _
theorem cmp (opA opB : Byte) : Statement (.cmp opA opB) := of_operands _
theorem jmp (opA : Byte) : Statement (.jmp opA) := of_operands _
theorem jeq (opA : Byte) : Statement (.jeq opA) := of_operands _
theorem jgt (opA : Byte) : Statement (.jgt opA) := of_operands _
theorem jlt (opA : Byte) : Statement (.jlt opA) := of_operands _
theorem jne (opA : Byte) : Statement (.jne opA) := of_operands _
theorem push (opA : Byte) : Statement (.push opA) := of_operands _
theorem pop (opA : Byte) : Statement (.pop opA) := of_operands _
theorem call (opA : Byte) : Statement (.call opA) := of_operands _
theorem ret : Statement .ret := of_operands _
theorem prn (opA : Byte) : Statement (.prn opA) := of_operands _

end Sys2Proof.Laws.EncodingLength
end

