-- ==== Sys2Proof/Laws/Step.lean ====
section
/-! SUPPORT. What a step can do (R91), once. -/

namespace Sys2Proof.Machine

/-- The boundary check at entry, in the words of `State.enters` (R90 (a)). -/
theorem State.entryPasses_eq_false {s : State} : s.entryPasses = false ↔ s.enters := by
  cases e : s.cfg.boundary <;> simp [State.entryPasses, State.enters, e]

/-- A halted engine does nothing (R95). -/
theorem step_halted {s : State} (h : s.run = .halted) : step s = .next s := by
  simp [step, h]

/-- A running engine that cannot fetch raises `Undefined_Boundary` (R90 (a)). -/
theorem step_boundary {s : State} (h : s.run = .running) (he : ¬ s.enters) :
    step s = .fault (.undefinedBoundary s.pc) := by
  have : s.entryPasses = true := by
    cases e : s.entryPasses
    · exact absurd (State.entryPasses_eq_false.1 e) he
    · rfl
  simp [step, h, this]

/-- An invalid opcode (R85). -/
theorem step_invalid {s : State} {e : DecodeError} (h : s.run = .running) (he : s.enters) (hd : s.decoded = .error e) :
    step s = .next ((s.setIr s.fetchIr).raiseFatal .invalidOpcode) := by
  simp [step, h, State.entryPasses_eq_false.2 he, hd]

/-- A decoded instruction (R86). -/
theorem step_exec {s : State} {i : Instr} (h : s.run = .running) (he : s.enters) (hd : s.decoded = .ok i) :
    step s = exec i (s.setIr s.fetchIr) := by
  simp [step, h, State.entryPasses_eq_false.2 he, hd]

/-- Everything a step can do. -/
theorem step_cases (s : State) :
    (s.run = .halted ∧ step s = .next s) ∨
    (s.run = .running ∧ ¬ s.enters ∧ step s = .fault (.undefinedBoundary s.pc)) ∨
    (s.run = .running ∧ s.enters ∧ (∃ e, s.decoded = .error e) ∧
      step s = .next ((s.setIr s.fetchIr).raiseFatal .invalidOpcode)) ∨
    (s.run = .running ∧ s.enters ∧ ∃ i, s.decoded = .ok i ∧ step s = exec i (s.setIr s.fetchIr)) := by
  cases h : s.run with
  | halted => exact .inl ⟨rfl, step_halted h⟩
  | running =>
    by_cases he : s.enters
    · cases hd : s.decoded with
      | error e => exact .inr (.inr (.inl ⟨rfl, he, ⟨e, rfl⟩, step_invalid h he hd⟩))
      | ok i => exact .inr (.inr (.inr ⟨rfl, he, i, rfl, step_exec h he hd⟩))
    · exact .inr (.inl ⟨rfl, he, step_boundary h he⟩)

end Sys2Proof.Machine
end

