-- ==== Sys2Proof/Tests/Slice0.lean ====
section
/-! SUPPORT. The model's own tests. Words are written out from 30_encoding.md R66; expected results are the vectors of
95_test_vectors.md, named in each comment. The witnesses meet the hypotheses of the statements, one theorem each. -/

namespace Sys2Proof.Tests

open Sys2Proof Sys2Proof.Machine

/-! ### WellFormed refuses each ill-formed operand, and never the immediate of `LDI` -/

theorem test_wf_refuses_one_register : (Instr.inc 8).wellFormed = false := by decide
theorem test_wf_refuses_first_register : (Instr.add 8 0).wellFormed = false := by decide
theorem test_wf_refuses_second_register : (Instr.add 0 0xFF).wellFormed = false := by decide
theorem test_wf_refuses_ldi_register : (Instr.ldi 8 1).wellFormed = false := by decide
theorem test_wf_allows_any_immediate : (Instr.ldi 7 0xFF).wellFormed = true := by decide
theorem test_wf_allows_last_register : (Instr.st 7 7).wellFormed = true := by decide

/-! ### Decoding: one word of each constructor, bit by bit from R66; operands not of the format are ignored -/

theorem test_decode_hlt : decode defaultOpc 0b00000001 0x03 0x04 = .ok (.hlt) := by decide
theorem test_decode_ldi : decode defaultOpc 0b10011001 0x03 0xFF = .ok (.ldi 3 255) := by decide
theorem test_decode_ld : decode defaultOpc 0b10011000 0x03 0x04 = .ok (.ld 3 4) := by decide
theorem test_decode_st : decode defaultOpc 0b10011010 0x03 0x04 = .ok (.st 3 4) := by decide
theorem test_decode_nop : decode defaultOpc 0b00000000 0x03 0x04 = .ok (.nop) := by decide
theorem test_decode_add : decode defaultOpc 0b10101000 0x03 0x04 = .ok (.add 3 4) := by decide
theorem test_decode_sub : decode defaultOpc 0b10101001 0x03 0x04 = .ok (.sub 3 4) := by decide
theorem test_decode_mul : decode defaultOpc 0b10101010 0x03 0x04 = .ok (.mul 3 4) := by decide
theorem test_decode_div : decode defaultOpc 0b10101011 0x03 0x04 = .ok (.div 3 4) := by decide
theorem test_decode_mod : decode defaultOpc 0b10101100 0x03 0x04 = .ok (.mod 3 4) := by decide
theorem test_decode_inc : decode defaultOpc 0b01111000 0x03 0x04 = .ok (.inc 3) := by decide
theorem test_decode_dec : decode defaultOpc 0b01111001 0x03 0x04 = .ok (.dec 3) := by decide
theorem test_decode_and : decode defaultOpc 0b10110011 0x03 0x04 = .ok (.and 3 4) := by decide
theorem test_decode_or : decode defaultOpc 0b10110001 0x03 0x04 = .ok (.or 3 4) := by decide
theorem test_decode_xor : decode defaultOpc 0b10110010 0x03 0x04 = .ok (.xor 3 4) := by decide
theorem test_decode_not : decode defaultOpc 0b01110000 0x03 0x04 = .ok (.not 3) := by decide
theorem test_decode_cmp : decode defaultOpc 0b10100000 0x03 0x04 = .ok (.cmp 3 4) := by decide
theorem test_decode_jmp : decode defaultOpc 0b01010000 0x03 0x04 = .ok (.jmp 3) := by decide
theorem test_decode_jeq : decode defaultOpc 0b01010001 0x03 0x04 = .ok (.jeq 3) := by decide
theorem test_decode_jgt : decode defaultOpc 0b01010100 0x03 0x04 = .ok (.jgt 3) := by decide
theorem test_decode_jlt : decode defaultOpc 0b01010011 0x03 0x04 = .ok (.jlt 3) := by decide
theorem test_decode_jne : decode defaultOpc 0b01010010 0x03 0x04 = .ok (.jne 3) := by decide
theorem test_decode_push : decode defaultOpc 0b01001101 0x03 0x04 = .ok (.push 3) := by decide
theorem test_decode_pop : decode defaultOpc 0b01001100 0x03 0x04 = .ok (.pop 3) := by decide
theorem test_decode_call : decode defaultOpc 0b01001000 0x03 0x04 = .ok (.call 3) := by decide
theorem test_decode_ret : decode defaultOpc 0b00001001 0x03 0x04 = .ok (.ret) := by decide
theorem test_decode_prn : decode defaultOpc 0b01000011 0x03 0x04 = .ok (.prn 3) := by decide
theorem test_decode_rejects : decode defaultOpc 0x02 0x05 0x06 = .error (.invalidOpcode 0x02) := by decide
theorem test_default_opc_valid : defaultOpc.Valid := by decide
theorem test_table_word : decodeTableWord 24 0x080099 = some (.ldi 0 8) := by decide
theorem test_table_word_short : decodeTableWord 8 0x78 = some (.inc 0) := by decide
theorem test_asm_ldi : (Instr.ldi 0 8).asm = "LDI R0,8" := by decide
theorem test_asm_mul : (Instr.mul 0 1).asm = "MUL R0,R1" := by decide

/-! ### One step: the vectors of 95_test_vectors.md -/

/-- The reset state with an image at address 0. -/
def prog (image : List Byte) : State := State.reset.pokes 0 image

/-- Some fields of the state after one step, if there is one. -/
def after {α : Type} (s : State) (f : State → α) : Option α :=
  match step s with
  | .next t => some (f t)
  | .fault _ => none
  | .refused _ => none

/-- The fault of one step, if it is one. -/
def faultOf (s : State) : Option Fault :=
  match step s with
  | .next _ => none
  | .fault f => some f
  | .refused _ => none

/-- The default machine with another boundary policy and other operand and `NOT` policies. -/
def withPolicies (s : State) (b : BoundaryPolicy) (r : RegidxPolicy) (n : NotPolicy) : State :=
  { s with cfg := { s.cfg with boundary := b, regidx := r, not := n } }

/-- V1-1. -/
theorem test_nop :
    after (prog [0x00]) (fun t => (t.pc, t.run)) = some (0x01, .running) := by decide
/-- V1-2. -/
theorem test_hlt :
    after (prog [0x01]) (fun t => (t.pc, t.run, t.ir)) = some (0x01, .halted, 0x01) := by decide
/-- V1-3. -/
theorem test_ldi :
    after (prog [0x99, 0x03, 0xFF]) (fun t => (t.reg 3, t.pc)) = some (0xFF, 0x03) := by decide
/-- V1-5. -/
theorem test_ldi_immediate_unchecked :
    after (prog [0x99, 0x00, 0x09]) (fun t => (t.reg 0, t.pc)) = some (0x09, 0x03) := by decide
/-- V1-6. -/
theorem test_ld :
    after (((prog [0x98, 0x00, 0x01]).setReg 1 0x80).poke 0x80 0x5A) (fun t => (t.reg 0, t.pc)) = some (0x5A, 0x03) := by decide
/-- V1-7. -/
theorem test_ld_same_register :
    after (prog [0x98, 0x02, 0x02]) (fun t => (t.reg 2, t.pc)) = some (0x98, 0x03) := by decide
/-- V1-8. -/
theorem test_st :
    after (((prog [0x9A, 0x00, 0x01]).setReg 0 0x80).setReg 1 0xAB) (fun t => (t.load 0x80, t.load 0xAB, t.pc)) = some (0xAB, 0x00, 0x03) := by decide
/-- V1-9. -/
theorem test_st_same_register :
    after ((prog [0x9A, 0x00, 0x00]).setReg 0 0x90) (fun t => (t.load 0x90, t.pc)) = some (0x90, 0x03) := by decide
/-- V2-1. -/
theorem test_add :
    after (((prog [0xA8, 0x00, 0x01]).setReg 0 200).setReg 1 100) (fun t => (t.reg 0, t.reg 1, t.pc, t.fl)) = some (0x2C, 0x64, 0x03, 0) := by decide
/-- V2-2. -/
theorem test_add_doubles :
    after ((prog [0xA8, 0x00, 0x00]).setReg 0 0x80) (fun t => (t.reg 0, t.pc)) = some (0x00, 0x03) := by decide
/-- V2-4. -/
theorem test_sub :
    after (((prog [0xA9, 0x00, 0x01]).setReg 0 5).setReg 1 10) (fun t => (t.reg 0, t.reg 1, t.pc)) = some (0xFB, 0x0A, 0x03) := by decide
/-- V2-5. -/
theorem test_sub_clears :
    after ((prog [0xA9, 0x04, 0x04]).setReg 4 0x37) (fun t => (t.reg 4, t.pc)) = some (0x00, 0x03) := by decide
/-- V2-7. -/
theorem test_mul :
    after (((prog [0xAA, 0x00, 0x01]).setReg 0 255).setReg 1 255) (fun t => (t.reg 0, t.reg 1, t.pc)) = some (0x01, 0xFF, 0x03) := by decide
/-- V2-8. -/
theorem test_mul_source_example :
    after (((prog [0xAA, 0x00, 0x01]).setReg 0 8).setReg 1 9) (fun t => (t.reg 0, t.pc)) = some (72, 0x03) := by decide
/-- V2-9. -/
theorem test_div :
    after (((prog [0xAB, 0x00, 0x01]).setReg 0 7).setReg 1 2) (fun t => (t.reg 0, t.reg 1, t.pc)) = some (0x03, 0x02, 0x03) := by decide
/-- V2-19. -/
theorem test_div_by_zero :
    after (((prog [0xAB, 0x00, 0x01]).setReg 0 5).setReg 1 0) (fun t => (t.reg 0, t.pc, t.run, t.rep)) = some (5, 0x03, .halted, [⟨.divideByZero, 0xAB⟩]) := by decide
/-- V2-14. -/
theorem test_mod :
    after (((prog [0xAC, 0x00, 0x01]).setReg 0 200).setReg 1 7) (fun t => (t.reg 0, t.reg 1, t.pc)) = some (0x04, 0x07, 0x03) := by decide
/-- V2-21. -/
theorem test_mod_by_zero :
    after (((prog [0xAC, 0x02, 0x03]).setReg 2 9).setReg 3 0) (fun t => (t.reg 2, t.pc, t.run, t.rep)) = some (9, 0x03, .halted, [⟨.divideByZero, 0xAC⟩]) := by decide
/-- V2-15. -/
theorem test_inc :
    after ((prog [0x78, 0x00]).setReg 0 255) (fun t => (t.reg 0, t.pc)) = some (0x00, 0x02) := by decide
/-- V2-16. -/
theorem test_inc_sp :
    after (prog [0x78, 0x07]) (fun t => (t.reg 7, t.pc)) = some (0xF5, 0x02) := by decide
/-- V2-17. -/
theorem test_dec :
    after ((prog [0x79, 0x00]).setReg 0 0) (fun t => (t.reg 0, t.pc)) = some (0xFF, 0x02) := by decide
/-- V2-18. -/
theorem test_dec_sp :
    after (prog [0x79, 0x07]) (fun t => (t.reg 7, t.pc)) = some (0xF3, 0x02) := by decide
/-- V3-1. -/
theorem test_and :
    after (((prog [0xB3, 0x00, 0x01]).setReg 0 0xCC).setReg 1 0xAA) (fun t => (t.reg 0, t.reg 1, t.pc, t.fl)) = some (0x88, 0xAA, 0x03, 0) := by decide
/-- V3-2. -/
theorem test_or :
    after (((prog [0xB1, 0x00, 0x01]).setReg 0 0xCC).setReg 1 0xAA) (fun t => (t.reg 0, t.reg 1, t.pc, t.fl)) = some (0xEE, 0xAA, 0x03, 0) := by decide
/-- V3-3. -/
theorem test_xor :
    after (((prog [0xB2, 0x00, 0x01]).setReg 0 0xCC).setReg 1 0xAA) (fun t => (t.reg 0, t.reg 1, t.pc, t.fl)) = some (0x66, 0xAA, 0x03, 0) := by decide
/-- V3-6. -/
theorem test_not :
    after ((prog [0x70, 0x00]).setReg 0 0xA5) (fun t => (t.reg 0, t.pc)) = some (0x5A, 0x02) := by decide
/-- V4-4. -/
theorem test_cmp_unsigned :
    after (((prog [0xA0, 0x00, 0x01]).setReg 0 0x80).setReg 1 0x7F) (fun t => (t.fl, t.pc)) = some (0b010, 0x03) := by decide
/-- V4-5. -/
theorem test_cmp_overwrites :
    after (((prog [0xA0, 0x03, 0x03]).setReg 3 9).setFl 0b110) (fun t => (t.fl, t.reg 3, t.pc)) = some (0b001, 9, 0x03) := by decide
/-- V4-6. -/
theorem test_jmp :
    after ((prog [0x50, 0x02]).setReg 2 0x40) (fun t => (t.pc, t.fl)) = some (0x40, 0) := by decide
/-- V4-7. -/
theorem test_jeq_taken :
    after (((prog [0x51, 0x02]).setReg 2 0x40).setFl 0b001) (fun t => (t.pc, t.fl)) = some (0x40, 0b001) := by decide
/-- V4-8. -/
theorem test_jeq_not_taken :
    after (((prog [0x51, 0x02]).setReg 2 0x40).setFl 0b010) (fun t => (t.pc, t.fl)) = some (0x02, 0b010) := by decide
/-- V4-10. -/
theorem test_jne_not_taken :
    after (((prog [0x52, 0x02]).setReg 2 0x40).setFl 0b001) (fun t => t.pc) = some 0x02 := by decide
/-- V4-11. -/
theorem test_jne_at_reset :
    after ((prog [0x52, 0x02]).setReg 2 0x40) (fun t => t.pc) = some 0x40 := by decide
/-- V4-12. -/
theorem test_jgt_taken :
    after (((prog [0x54, 0x02]).setReg 2 0x40).setFl 0b010) (fun t => t.pc) = some 0x40 := by decide
/-- V4-13. -/
theorem test_jgt_not_taken :
    after (((prog [0x54, 0x02]).setReg 2 0x40).setFl 0b100) (fun t => t.pc) = some 0x02 := by decide
/-- V4-14. -/
theorem test_jlt_taken :
    after (((prog [0x53, 0x02]).setReg 2 0x40).setFl 0b100) (fun t => t.pc) = some 0x40 := by decide
/-- V4-15. -/
theorem test_jlt_not_taken :
    after (((prog [0x53, 0x02]).setReg 2 0x40).setFl 0b001) (fun t => t.pc) = some 0x02 := by decide
/-- V5-2. -/
theorem test_push :
    after (((prog [0x4D, 0x00]).setReg 0 0x2A).setReg 7 0) (fun t => (t.reg 7, t.load 0xFF, t.pc)) = some (0xFF, 0x2A, 0x02) := by decide
/-- V5-3. -/
theorem test_push_sp :
    after (prog [0x4D, 0x07]) (fun t => (t.reg 7, t.load 0xF3, t.pc)) = some (0xF3, 0xF3, 0x02) := by decide
/-- V5-5. -/
theorem test_pop :
    after (((prog [0x4C, 0x01]).setReg 7 0xFF).poke 0xFF 0x77) (fun t => (t.reg 1, t.reg 7, t.pc)) = some (0x77, 0x00, 0x02) := by decide
/-- V5-6. -/
theorem test_pop_sp :
    after (((prog [0x4C, 0x07]).setReg 7 0xF3).poke 0xF3 0x20) (fun t => (t.reg 7, t.pc)) = some (0x21, 0x02) := by decide
/-- V6-1. -/
theorem test_call :
    after ((prog [0x48, 0x01]).setReg 1 0x30) (fun t => (t.reg 7, t.load 0xF3, t.pc)) = some (0xF3, 0x02, 0x30) := by decide
/-- V6-2. -/
theorem test_call_sp :
    after (prog [0x48, 0x07]) (fun t => (t.reg 7, t.load 0xF3, t.pc)) = some (0xF3, 0x02, 0xF3) := by decide
/-- V6-3. -/
theorem test_ret :
    after (((prog [0x09]).setReg 7 0xF3).poke 0xF3 0x08) (fun t => (t.reg 7, t.pc)) = some (0xF4, 0x08) := by decide
/-- V6-4. -/
theorem test_ret_unbalanced :
    after ((prog [0x09]).poke 0xF4 0x22) (fun t => (t.reg 7, t.pc)) = some (0xF5, 0x22) := by decide
/-- V7-3. -/
theorem test_prn :
    after ((prog [0x43, 0x00]).setReg 0 0xFF) (fun t => (t.out, outputLines t.out, t.pc)) = some ([255], ["255"], 0x02) := by decide
/-- V7-2. -/
theorem test_prn_sp :
    after (prog [0x43, 0x07]) (fun t => (t.out, t.reg 7)) = some ([244], 244) := by decide
/-- V8-2. -/
theorem test_invalid_opcode :
    after ((prog [0x02, 0x05, 0x06]).setReg 0 1) (fun t => (t.pc, t.ir, t.run, t.rep, t.reg 0)) = some (0x00, 0x02, .halted, [⟨.invalidOpcode, 0x02⟩], 1) := by decide
/-- V8-4. -/
theorem test_mask3 :
    after (withPolicies (prog [0x99, 0x08, 0x01]) .fault .mask3 .mask8) (fun t => (t.reg 0, t.pc)) = some (0x01, 0x03) := by decide
/-- V8-9. -/
theorem test_hlt_wrap :
    after (withPolicies ((State.reset.poke 0xFF 0x01).setPc 0xFF) .wrap .fault .mask8) (fun t => (t.pc, t.run)) = some (0x00, .halted) := by decide
/-- V8-11. -/
theorem test_jump_near_top :
    after (((State.reset.pokes 0xFC [0x50, 0x00]).setPc 0xFC).setReg 0 0x10) (fun t => t.pc) = some 0x10 := by decide
/-- V8-12. -/
theorem test_halted :
    after ((prog [0x78, 0x00]).halt) (fun t => (t.reg 0, t.pc, t.ir)) = some (0, 0, 0) := by decide
/-- V8-5. -/
theorem test_bad_second_register : faultOf (prog [0xA8, 0x00, 0x09]) = some (.undefinedRegisterIndex 0x09) := by decide
/-- V8-6. -/
theorem test_bad_register_untaken_jump : faultOf (prog [0x51, 0x08]) = some (.undefinedRegisterIndex 0x08) := by decide
/-- V8-7. -/
theorem test_bad_register_before_zero_divisor : faultOf (prog [0xAB, 0x08, 0x01]) = some (.undefinedRegisterIndex 0x08) := by decide
/-- V8-8. -/
theorem test_boundary_entry : faultOf (State.reset.setPc 0xFE) = some (.undefinedBoundary 0xFE) := by decide
/-- V8-10. -/
theorem test_boundary_advance : faultOf ((State.reset.pokes 0xFD [0x99, 0x00, 0x07]).setPc 0xFD) = some (.undefinedBoundary 0xFD) := by decide
/-- R143: `NOT` is withheld under `refuse`. -/
theorem test_not_withheld :
    (match step (withPolicies (prog [0x70, 0x00]) .fault .fault .refuse) with
      | .refused r => some r | .next _ => none | .fault _ => none) = some .notWithheld := by decide
/-- The host's placing of an instruction runs as the first step after reset (log 21). -/
theorem test_fetch_word : after (State.reset.withFetchWord 24 0x080099) (fun t => (t.reg 0, t.pc)) = some (8, 3) := by decide

/-! ### Witnesses: states and operands that meet the hypotheses of the statements -/

theorem witness_WriteChangesExactlyOneByte : Memory.wf [(0xF3, 0x2A)] := by decide
theorem witness_MemoryIsItsReading :
    Memory.wf [(0, 1), (255, 2)] ∧ ∀ a, Memory.read [(0, 1), (255, 2)] a = Memory.read [(0, 1), (255, 2)] a :=
  ⟨by decide, fun _ => rfl⟩
theorem witness_StepKeepsTheInvariant : (prog [0x4D, 0x07]).Inv ∧ ∃ t, step (prog [0x4D, 0x07]) = .next t :=
  ⟨⟨by decide, by decide, by decide⟩, _, rfl⟩
theorem witness_DecodeOfEncode : defaultOpc.Valid := test_default_opc_valid
theorem witness_EncodeOfDecode : defaultOpc.Valid ∧ decode defaultOpc 0x78 0x07 0xFF = .ok (.inc 7) := by decide
theorem witness_InvalidOpcodesNumber229 :
    defaultOpc.Valid ∧ opcount 0xC0 = 3 ∧ opcount 0xFF = 3 ∧ defaultOpc.lookup 0x02 = none := by decide
theorem witness_StepRunsTheDecodedInstruction :
    (prog [0x99, 0x00, 0x08]).run = .running ∧ (prog [0x99, 0x00, 0x08]).enters ∧
      (prog [0x99, 0x00, 0x08]).decoded = .ok (.ldi 0 8) := by decide
theorem witness_StepRuns_wraps :
    (withPolicies ((State.reset.pokes 0xFE [0x99, 0x00, 0x08]).setPc 0xFE) .wrap .fault .mask8).enters ∧
      (withPolicies ((State.reset.pokes 0xFE [0x99, 0x00, 0x08]).setPc 0xFE) .wrap .fault .mask8).decoded =
        .ok (.ldi 0 8) := by decide
theorem witness_InvalidOpcodeReportsAndHalts :
    (prog [0xFF]).run = .running ∧ (prog [0xFF]).enters ∧
      ∀ m ∈ Mnemonic.all, (prog [0xFF]).cfg.opc.byteOf m ≠ Memory.read (prog [0xFF]).mem (prog [0xFF]).pc := by decide
theorem witness_HaltedIsTerminal : (prog [0x78, 0x00]).halt.run = .halted := by decide
theorem witness_ThreeWays_invalid : (prog [0xFF]).run = .running ∧ ∃ t, step (prog [0xFF]) = .next t := ⟨rfl, _, rfl⟩
theorem witness_ThreeWays_hlt : (prog [0x01]).run = .running ∧ ∃ t, step (prog [0x01]) = .next t := ⟨rfl, _, rfl⟩
theorem witness_ThreeWays_div :
    (prog [0xAB, 0x00, 0x01]).run = .running ∧ (prog [0xAB, 0x00, 0x01]).decoded = .ok (.div 0 1) ∧
      (prog [0xAB, 0x00, 0x01]).names 1 1 ∧ (prog [0xAB, 0x00, 0x01]).reg 1 = 0 ∧
      ∃ t, step (prog [0xAB, 0x00, 0x01]) = .next t := ⟨rfl, rfl, rfl, rfl, _, rfl⟩
theorem witness_OnlyCmpChangesFlags : ∃ t, step (prog [0xA0, 0x00, 0x00]) = .next t ∧ t.fl ≠ (prog [0xA0, 0x00, 0x00]).fl :=
  ⟨_, rfl, by decide⟩
theorem witness_OnlyPrnPrints : ∃ t, step (prog [0x43, 0x07]) = .next t ∧ t.out ≠ (prog [0x43, 0x07]).out :=
  ⟨_, rfl, by decide⟩
theorem witness_Reports_none : (prog [0x00]).run = .running ∧ ∃ t, step (prog [0x00]) = .next t ∧ t.run = .running :=
  ⟨rfl, _, rfl, rfl⟩
theorem witness_StepWritesOnlyItsAccess :
    Memory.wf (prog [0x4D, 0x07]).mem ∧ .write 0xF3 0xF3 ∈ (prog [0x4D, 0x07]).accesses ∧
      (∀ v ∈ [0x00, 0xF3], .write 0xF4 v ∉ (prog [0x4D, 0x07]).accesses) := by decide
theorem witness_StepWrites_steps : ∃ t, step (prog [0x4D, 0x07]) = .next t := ⟨_, rfl⟩
theorem witness_StepReadsOnlyItsAccesses :
    (prog [0x00]).accesses = [.read 0, .read 1, .read 2] ∧
      (∀ a ∈ [0, 1, 2], Memory.read [(0x80, 7)] a = (prog [0x00]).load a) ∧
      Memory.read [(0x80, 7)] 0x80 ≠ (prog [0x00]).load 0x80 := by decide
theorem witness_OnlyListedRegistersChange :
    (∃ t, exec (.pop 1) State.reset = .next t) ∧ (0 : Reg) ∉ regWrites (.pop 1) State.reset := ⟨⟨_, rfl⟩, by decide⟩
theorem witness_UnlistedRegistersHaveNoInfluence :
    (6 : Reg) ∉ regReads (.add 0 7) State.reset ∧ (6 : Reg) ∉ regWrites (.add 0 7) State.reset := by decide
theorem witness_ImAndIsHaveNoFunction :
    (prog [0xA8, 0x04, 0x07]).decoded = .ok (.add 4 7) ∧
      ∀ r ∈ [(5 : Reg), 6], ∀ b ∈ (Instr.add 4 7).regOperands, ¬ (prog [0xA8, 0x04, 0x07]).names b r := by decide
theorem witness_ParametersAndIrAfterAStep :
    (prog [0x78, 0x00]).run = .running ∧ (∃ t, step (prog [0x78, 0x00]) = .next t) ∧
      (prog [0x78, 0x00]).halt.run = .halted ∧ ∃ t, step ((prog [0x78, 0x00]).halt) = .next t := ⟨rfl, ⟨_, rfl⟩, rfl, _, rfl⟩
theorem witness_OldIrIsUnobservable : (prog [0x78, 0x00]).run = .running := rfl
theorem witness_StoreIsSeenByTheNextFetch :
    Memory.wf (State.reset.setReg 0 1).mem ∧ (State.reset.setReg 0 1).names 0 0 ∧ (State.reset.setReg 0 1).names 7 7 ∧
      ∃ t, exec (.st 0 7) (State.reset.setReg 0 1) = .next t ∧ t.pc = (State.reset.setReg 0 1).reg 0 :=
  ⟨by decide, by decide, by decide, _, rfl, by decide⟩
theorem witness_BoundaryFaultsExactly_entry :
    (State.reset.setPc 0xFE).run = .running ∧ (State.reset.setPc 0xFE).cfg.boundary = .fault ∧
      (State.reset.setPc 0xFE).cfg.opc.Valid ∧ 0xFE ≤ (State.reset.setPc 0xFE).pc.toNat := by decide
theorem witness_BoundaryFaultsExactly_advance :
    opcount ((State.reset.poke 0xFD 0x99).setPc 0xFD).fetchIr = 2 ∧
      ((State.reset.poke 0xFD 0x99).setPc 0xFD).decoded = .ok (.ldi 0 0) ∧
      ((State.reset.poke 0xFD 0x99).setPc 0xFD).names 0 0 := by decide
theorem witness_BadRegisterByteFaults_first :
    State.reset.cfg.regidx = .fault ∧
      (Instr.add 8 0xFF).regOperands.find? (fun b => !regInRange b) = some 8 := by decide
theorem witness_BadRegisterByteFaults_second :
    (Instr.add 7 0xFF).regOperands.find? (fun b => !regInRange b) = some 0xFF := by decide
theorem witness_RegisterByteMeaning :
    (7 : Byte).toNat < 8 ∧ 8 ≤ (8 : Byte).toNat ∧ 8 ≤ (0xFF : Byte).toNat := by decide
theorem witness_StopsOnly_boundary : ∃ f, step (State.reset.setPc 0xFF) = .fault f := ⟨_, rfl⟩
theorem witness_StopsOnly_register : ∃ f, step (prog [0x78, 0x08]) = .fault f := ⟨_, rfl⟩
theorem witness_StopsOnly_refused : ∃ r, step (withPolicies (prog [0x70, 0x00]) .fault .fault .refuse) = .refused r := ⟨_, rfl⟩
theorem witness_NothingStopsUnderWrapMask3Mask8 :
    (withPolicies State.reset .wrap .mask3 .mask8).cfg.boundary = .wrap ∧
      (withPolicies State.reset .wrap .mask3 .mask8).cfg.regidx = .mask3 ∧
      (withPolicies State.reset .wrap .mask3 .mask8).cfg.not = .mask8 := by decide
theorem witness_WellFormedStepCompletes :
    ((State.reset.poke 0xFC 0x99).setPc 0xFC).run = .running ∧ ((State.reset.poke 0xFC 0x99).setPc 0xFC).cfg.opc.Valid ∧
      ((State.reset.poke 0xFC 0x99).setPc 0xFC).cfg.not = .mask8 ∧
      ((State.reset.poke 0xFC 0x99).setPc 0xFC).pc.toNat < 0xFD ∧
      ((State.reset.poke 0xFC 0x99).setPc 0xFC).decoded = .ok (.ldi 0 0) ∧ (Instr.ldi 0 0).wellFormed = true := by decide
theorem witness_AluDivModIsEuclidean : (1 : Byte) ≠ 0 ∧ (0 : Byte) = 0 := by decide
/-- `HltHalts`, `NopOnlyAdvances`: the advance fits, at the last address where it does and under `wrap`. -/
theorem witness_advances :
    (State.reset.setPc 0xFE).advances ∧ (withPolicies (State.reset.setPc 0xFF) .wrap .fault .mask8).advances := by decide
/-- `LdiLoadsTheImmediate`, `IncDecWrap`, `PopReadsTheTopOfTheStack`, `PrnAppendsTheValue`, `JmpJumps`: one register, at both
ends of the range, and under `mask3`. -/
theorem witness_one_register :
    State.reset.names 0 0 ∧ State.reset.names 7 7 ∧ (withPolicies State.reset .fault .mask3 .mask8).names 0xFF 7 ∧
      State.reset.advances := by decide
/-- `LdLoadsFromTheAddressInB`, `StStoresAtTheAddressInA`, `AddSubMulWriteTheResult`, `AndOrXorWriteTheResult`,
`CmpWritesAllFlags`: two registers, the same one twice among them. -/
theorem witness_two_registers :
    Memory.wf State.reset.mem ∧ State.reset.names 0 0 ∧ State.reset.names 7 7 ∧ State.reset.advances := by decide
theorem witness_DivModWriteTheResult :
    State.reset.names 0 0 ∧ State.reset.names 7 7 ∧ State.reset.regs[(7 : Reg)] ≠ 0 ∧ State.reset.advances := by decide
theorem witness_ZeroDivisorReportsAndHalts :
    State.reset.names 7 7 ∧ State.reset.names 0 0 ∧ State.reset.regs[(0 : Reg)] = 0 ∧ State.reset.advances := by decide
theorem witness_NotComplements :
    State.reset.names 0 0 ∧ State.reset.cfg.not = .mask8 ∧ State.reset.advances ∧
      (withPolicies State.reset .fault .fault .refuse).names 0 0 ∧
      (withPolicies State.reset .fault .fault .refuse).cfg.not = .refuse := by decide
theorem witness_BranchesTestTheirFlag :
    State.reset.names 7 7 ∧ (State.reset.setFl 0b001).fl.getLsbD 0 = true ∧ (State.reset.setFl 0b010).fl.getLsbD 1 = true ∧
      (State.reset.setFl 0b100).fl.getLsbD 2 = true ∧ State.reset.fl.getLsbD 0 = false ∧ State.reset.fl.getLsbD 1 = false ∧
      State.reset.fl.getLsbD 2 = false ∧ State.reset.advances := by decide
/-- `PushWritesBelowTheStack`, `CallPushesTheReturnAddress`: an ordinary register and the stack pointer itself. -/
theorem witness_push :
    Memory.wf State.reset.mem ∧ State.reset.names 0 0 ∧ State.reset.names 7 7 ∧ State.reset.advances := by decide
theorem witness_PushThenPopRestores :
    Memory.wf State.reset.mem ∧ State.reset.names 7 7 ∧ ∃ t u, exec (.push 7) State.reset = .next t ∧
      exec (.pop 7) ({ t with ir := 0x4C } : State) = .next u := ⟨by decide, by decide, _, _, rfl, rfl⟩
theorem witness_CallThenRetReturns :
    Memory.wf State.reset.mem ∧ State.reset.names 1 1 ∧ ∃ t w, exec (.call 1) State.reset = .next t ∧
      t.reg 7 = t.reg 7 ∧ t.load (t.reg 7) = t.load (t.reg 7) ∧ exec .ret t = .next w :=
  ⟨by decide, by decide, _, _, rfl, rfl, rfl, rfl⟩
theorem witness_PokeWritesOneByteOnly : Memory.wf (prog [0x99, 0x00, 0x08]).mem := by decide

end Sys2Proof.Tests
end

section
/-! SUPPORT. What a step that answers a next state did, what a handler does to memory and flags, and the registers a
handler lists (R15): the facts from which the statements about the state follow. -/

namespace Sys2Proof.Machine

/-- Everything a step that answers a next state can have done. -/
theorem step_next {s t : State} (e : step s = .next t) :
    (s.run = .halted ∧ t = s) ∨
    (s.run = .running ∧ s.enters ∧ (∃ e, s.decoded = .error e) ∧
      t = (s.setIr s.fetchIr).raiseFatal .invalidOpcode) ∨
    (s.run = .running ∧ s.enters ∧ ∃ i, s.decoded = .ok i ∧ exec i (s.setIr s.fetchIr) = .next t) := by
  rcases step_cases s with ⟨hr, e'⟩ | ⟨-, -, e'⟩ | ⟨hr, he, hd, e'⟩ | ⟨hr, he, i, hd, e'⟩
  · rw [e'] at e; cases e; exact .inl ⟨hr, rfl⟩
  · rw [e'] at e; cases e
  · rw [e'] at e; cases e; exact .inr (.inl ⟨hr, he, hd, rfl⟩)
  · exact .inr (.inr ⟨hr, he, i, hd, e' ▸ e⟩)

/-! ### Memory and flags -/

/-- A handler leaves the memory as it is or writes one byte of it (R46). -/
theorem Handled.mem_cases {s h : State} {i : Instr} {n : Next} (H : Handled s i h n) :
    h.mem = s.mem ∨ ∃ addr v, h.mem = Memory.write s.mem addr v := by
  cases H
  case st | push | call => exact .inr ⟨_, _, rfl⟩
  all_goals exact .inl rfl

/-- A handler leaves the flags as they are, or is that of `CMP` and leaves what a comparison computes (R26). -/
theorem Handled.fl_cases {s h : State} {i : Instr} {n : Next} (H : Handled s i h n) :
    h.fl = s.fl ∨ ∃ opA opB x y, i = .cmp opA opB ∧ h.fl = compareFlags x y := by
  cases H
  case cmp => exact .inr ⟨_, _, _, _, rfl, rfl⟩
  all_goals exact .inl rfl

/-- Every handler keeps the invariant. -/
theorem Handled.inv {s h : State} {i : Instr} {n : Next} (H : Handled s i h n) (hs : s.Inv) : h.Inv where
  mem := by
    rcases H.mem_cases with e | ⟨addr, v, e⟩
    · exact e ▸ hs.mem
    · exact e ▸ Memory.write_wf hs.mem addr v
  flags := by
    rcases H.fl_cases with e | ⟨-, -, x, y, -, e⟩
    · exact e ▸ hs.flags
    · exact e ▸ compareFlags_legal x y
  opc := by
    obtain ⟨hc, -, -⟩ := H.keeps
    exact hc ▸ hs.opc

/-- Executing an instruction keeps the invariant. -/
theorem exec_inv {i : Instr} {s t : State} (hs : s.Inv) (e : exec i s = .next t) : t.Inv := by
  obtain ⟨h, n, p, H, rfl, -⟩ := exec_next e
  obtain ⟨hm, hf, ho⟩ := H.inv hs
  exact ⟨hm, hf, ho⟩

/-- Executing an instruction other than `CMP` keeps the flags. -/
theorem exec_fl_cases {i : Instr} {s t : State} (e : exec i s = .next t) :
    t.fl = s.fl ∨ ∃ opA opB, i = .cmp opA opB := by
  obtain ⟨h, n, p, H, rfl, -⟩ := exec_next e
  rcases H.fl_cases with e | ⟨opA, opB, -, -, hi, -⟩
  · exact .inl e
  · exact .inr ⟨opA, opB, hi⟩

/-- Executing an instruction keeps the parameters and `ir` (R24). -/
theorem exec_keeps_cfg_ir {i : Instr} {s t : State} (e : exec i s = .next t) : t.cfg = s.cfg ∧ t.ir = s.ir := by
  obtain ⟨h, n, p, H, rfl, -⟩ := exec_next e
  obtain ⟨hc, -, hi⟩ := H.keeps
  exact ⟨hc, hi⟩

/-! ### Listed registers -/

/-- What an operand byte lists is what the register it names lists. -/
theorem State.mem_named {α : Type} {s : State} {b : Byte} {k : Reg → List α} {x : α} :
    x ∈ s.named b k ↔ ∃ a, s.names b a ∧ x ∈ k a := by
  cases h : regIndex s.cfg.regidx b <;> simp [State.named, State.names, h]

/-- A register that an operand byte does not list is not listed for the register it names. -/
theorem State.notMem_of_notMem_named {α : Type} {s : State} {b : Byte} {a : Reg} {k : Reg → List α} {x : α}
    (hx : x ∉ s.named b k) (ha : s.names b a) : x ∉ k a :=
  fun h => hx (State.mem_named.2 ⟨a, ha, h⟩)

/-- A register that an operand byte alone would list, and does not, is not the one it names. -/
theorem State.ne_of_notMem_named {s : State} {b : Byte} {a r : Reg} (hr : r ∉ s.named b fun a => [a])
    (ha : s.names b a) : r ≠ a :=
  List.ne_of_not_mem_cons (State.notMem_of_notMem_named hr ha)

/-- A register that two operand bytes would list, and do not, is neither of those they name. -/
theorem State.ne_of_notMem_named_named {s : State} {opA opB : Byte} {a b r : Reg}
    (hr : r ∉ s.named opA fun a => s.named opB fun b => [a, b]) (ha : s.names opA a) (hb : s.names opB b) :
    r ≠ a ∧ r ≠ b := by
  simpa using State.notMem_of_notMem_named (State.notMem_of_notMem_named hr ha) hb

/-- A handler writes no register but the stack pointer and those its operands name (R15). -/
theorem eq_sp_or_named_of_mem_regWrites {i : Instr} {s : State} {r : Reg} (hr : r ∈ regWrites i s) :
    r = sp ∨ ∃ b ∈ i.regOperands, s.names b r := by
  cases i
  case hlt | nop | st | cmp | jmp | jeq | jgt | jlt | jne | prn => simp [regWrites] at hr
  case push | call | ret => exact .inl (by simpa [regWrites] using hr)
  case pop opA =>
    obtain ⟨a, ha, h⟩ := State.mem_named.1 hr
    rcases List.mem_pair.1 h with rfl | h
    · exact .inr ⟨opA, List.mem_cons_self, ha⟩
    · exact .inl h
  case div opA opB | mod opA opB =>
    obtain ⟨a, ha, h⟩ := State.mem_named.1 hr
    obtain ⟨b, -, h⟩ := State.mem_named.1 h
    split at h
    · simp at h
    · exact .inr ⟨opA, List.mem_cons_self, List.mem_singleton.1 h ▸ ha⟩
  case ldi opA _ | ld opA _ | add opA _ | sub opA _ | mul opA _ | and opA _ | or opA _ | xor opA _
      | inc opA | dec opA | not opA =>
    obtain ⟨a, ha, h⟩ := State.mem_named.1 hr
    exact .inr ⟨opA, List.mem_cons_self, List.mem_singleton.1 h ▸ ha⟩

/-- A handler reads no register but the stack pointer and those its operands name (R15). -/
theorem eq_sp_or_named_of_mem_regReads {i : Instr} {s : State} {r : Reg} (hr : r ∈ regReads i s) :
    r = sp ∨ ∃ b ∈ i.regOperands, s.names b r := by
  cases i
  case hlt | nop | ldi => simp [regReads] at hr
  case pop | ret => exact .inl (by simpa [regReads] using hr)
  case push opA | call opA =>
    obtain ⟨a, ha, h⟩ := State.mem_named.1 hr
    rcases List.mem_pair.1 h with h | rfl
    · exact .inl h
    · exact .inr ⟨opA, List.mem_cons_self, ha⟩
  case ld opA opB =>
    obtain ⟨b, hb, h⟩ := State.mem_named.1 hr
    exact .inr ⟨opB, List.mem_cons_of_mem _ List.mem_cons_self, List.mem_singleton.1 h ▸ hb⟩
  case st opA opB | add opA opB | sub opA opB | mul opA opB | div opA opB | mod opA opB | and opA opB
      | or opA opB | xor opA opB | cmp opA opB =>
    obtain ⟨a, ha, h⟩ := State.mem_named.1 hr
    obtain ⟨b, hb, h⟩ := State.mem_named.1 h
    rcases List.mem_pair.1 h with rfl | rfl
    · exact .inr ⟨opA, List.mem_cons_self, ha⟩
    · exact .inr ⟨opB, List.mem_cons_of_mem _ List.mem_cons_self, hb⟩
  case jeq opA | jgt opA | jlt opA | jne opA =>
    obtain ⟨a, ha, h⟩ := State.mem_named.1 hr
    split at h
    · exact .inr ⟨opA, List.mem_cons_self, List.mem_singleton.1 h ▸ ha⟩
    · simp at h
  case inc opA | dec opA | not opA | jmp opA | prn opA =>
    obtain ⟨a, ha, h⟩ := State.mem_named.1 hr
    exact .inr ⟨opA, List.mem_cons_self, List.mem_singleton.1 h ▸ ha⟩

/-- A handler leaves alone every register that is not listed as written (R15). -/
theorem Handled.reg_of_notMem_regWrites {s h : State} {i : Instr} {n : Next} {r : Reg} (H : Handled s i h n)
    (hr : r ∉ regWrites i s) : h.reg r = s.reg r := by
  cases H
  case ldi ha | ld ha _ | add ha _ _ | sub ha _ _ | mul ha _ _ | and ha _ _ | or ha _ _ | xor ha _ _ | inc ha _
      | dec ha _ | not ha _ =>
    exact s.setReg_reg_other (State.ne_of_notMem_named hr ha) _
  case div a b _ ha hb h0 _ | mod a b _ ha hb h0 _ =>
    have hra := State.notMem_of_notMem_named (State.notMem_of_notMem_named hr ha) hb
    rw [if_neg h0] at hra
    exact s.setReg_reg_other (List.ne_of_not_mem_cons hra) _
  case pop a ha =>
    obtain ⟨hra, hrsp⟩ : r ≠ a ∧ r ≠ sp := by simpa using State.notMem_of_notMem_named hr ha
    exact (State.setReg_reg_other _ hrsp _).trans (s.setReg_reg_other hra _)
  case push | call | ret =>
    exact s.setReg_reg_other (List.ne_of_not_mem_cons hr) _
  all_goals rfl

end Sys2Proof.Machine
end

section
/-! SUPPORT. A register that a handler neither reads nor writes has no influence on it (R15): changing it beforehand is
changing it afterwards. One lemma per shared operation of the handlers, then all instructions. -/

namespace Sys2Proof.Machine

variable {s : State} {r : Reg} {v : Byte}

/-- Falling through where the advance raises the fault (R90 (b)). -/
theorem complete_boundary {h : State} (ha : ¬ h.advances) :
    complete h .fallthrough = .fault (.undefinedBoundary h.pc) := by
  rcases complete_cases h .fallthrough with ⟨p, -, hn | ⟨-, ha', -⟩⟩ | ⟨e, -⟩
  · cases hn
  · exact absurd ha' ha
  · exact e

/-- The end of a step reads and writes no register. -/
theorem complete_setReg (h : State) (r : Reg) (v : Byte) (n : Next) :
    complete (h.setReg r v) n = Result.onNext (fun t => t.setReg r v) (complete h n) := by
  cases n with
  | jump p => rfl
  | fallthrough =>
    by_cases ha : h.advances
    · rw [complete_fallthrough ha]; exact complete_fallthrough (h := h.setReg r v) ha
    · rw [complete_boundary ha]; exact complete_boundary (h := h.setReg r v) ha

/-- Ending in a state that differs in one register only. -/
theorem complete_of_eq_setReg {h h' : State} (e : h' = h.setReg r v) (n : Next) :
    complete h' n = Result.onNext (fun t => t.setReg r v) (complete h n) :=
  e ▸ complete_setReg h r v n

/-- The ALU handlers depend on their two registers only. -/
theorem aluHandler_setReg (op : AluOp) {a b : Reg} (ha : r ≠ a) (hb : r ≠ b) :
    aluHandler op a b (s.setReg r v) = Result.onNext (fun t => t.setReg r v) (aluHandler op a b s) := by
  simp only [aluHandler, s.setReg_reg_other ha.symm, s.setReg_reg_other hb.symm]
  cases alu op (s.reg a) (s.reg b) with
  | none => exact complete_setReg (s.raiseFatal .divideByZero) r v _
  | some o =>
    cases o with
    | value y => exact complete_of_eq_setReg (s.setReg_comm ha.symm v y) _
    | flags f => exact complete_setReg (s.setFl f) r v _

/-- A conditional jump depends on its register only where it is taken. -/
theorem jumpIf_setReg {c : Bool} {a : Reg} (ha : c = true → r ≠ a) :
    jumpIf c a (s.setReg r v) = Result.onNext (fun t => t.setReg r v) (jumpIf c a s) := by
  cases c with
  | false => exact complete_setReg s r v .fallthrough
  | true => simp [jumpIf, s.setReg_reg_other (ha rfl).symm, complete_setReg]

/-- A push depends on the stack pointer and on what it pushes. -/
theorem State.push_setReg {value : State → Byte} (hsp : r ≠ sp)
    (hv : ∀ s1 : State, value (s1.setReg r v) = value s1) :
    (s.setReg r v).push value = (s.push value).setReg r v := by
  rw [State.push_eq, State.push_eq, s.setReg_reg_other hsp.symm, s.setReg_comm hsp.symm, hv]
  rfl

/-- Which register an operand names does not depend on the registers. -/
theorem withReg_setReg {b : Byte} {k k' : Reg → Result}
    (hk : ∀ a, s.names b a → k' a = Result.onNext (fun t => t.setReg r v) (k a)) :
    withReg (s.setReg r v) b k' = Result.onNext (fun t => t.setReg r v) (withReg s b k) := by
  rcases withReg_cases s b k with ⟨a, ha, e⟩ | ⟨hn, e⟩
  · rw [e, withReg_of_names (s := s.setReg r v) ha, hk a ha]
  · rw [e, withReg_of_none (s := s.setReg r v) hn]; rfl

/-- Which registers two operands name does not depend on the registers. -/
theorem withRegs_setReg {opA opB : Byte} {k k' : Reg → Reg → Result}
    (hk : ∀ a b, s.names opA a → s.names opB b → k' a b = Result.onNext (fun t => t.setReg r v) (k a b)) :
    withRegs (s.setReg r v) opA opB k' = Result.onNext (fun t => t.setReg r v) (withRegs s opA opB k) :=
  withReg_setReg fun a ha => withReg_setReg fun b hb => hk a b ha hb

/-- A conditional jump's register is listed as read where the jump is taken. -/
theorem ne_of_notMem_named_ite {c : Bool} {b : Byte} {a : Reg} (hr : r ∉ s.named b fun a => if c then [a] else [])
    (ha : s.names b a) (hc : c = true) : r ≠ a :=
  State.ne_of_notMem_named (by simpa [hc] using hr) ha

/-- A register that is listed neither as read nor as written has no influence on an instruction (R15). -/
theorem exec_setReg {i : Instr} (hr : r ∉ regReads i s) (hw : r ∉ regWrites i s) :
    exec i (s.setReg r v) = Result.onNext (fun t => t.setReg r v) (exec i s) := by
  cases i
  case hlt => exact complete_setReg s.halt r v .fallthrough
  case nop => exact complete_setReg s r v .fallthrough
  case ret =>
    have hsp : r ≠ sp := List.ne_of_not_mem_cons hr
    have hdrop : (s.setReg r v).dropTop = s.dropTop.setReg r v := by
      simp only [State.dropTop, s.setReg_reg_other hsp.symm, s.setReg_comm hsp.symm]
    have htop : (s.setReg r v).top = s.top := by simp [s.setReg_reg_other hsp.symm]
    exact (congrArg₂ (fun h x => complete h (.jump x)) hdrop htop).trans (complete_setReg _ r v _)
  case add | sub | mul | div | mod | and | or | xor | cmp =>
    refine withRegs_setReg fun a b ha hb => ?_
    obtain ⟨hra, hrb⟩ := State.ne_of_notMem_named_named hr ha hb
    exact aluHandler_setReg _ hra hrb
  case inc | dec =>
    refine withReg_setReg fun a ha => ?_
    have hra := State.ne_of_notMem_named hr ha
    exact aluHandler_setReg _ hra hra
  case not =>
    refine withReg_setReg fun a ha => ?_
    have hra := State.ne_of_notMem_named hr ha
    rw [State.setReg_cfg]
    cases s.cfg.not with
    | mask8 => exact aluHandler_setReg _ hra hra
    | refuse => rfl
  case ldi =>
    refine withReg_setReg fun a ha => ?_
    exact complete_of_eq_setReg (s.setReg_comm (State.ne_of_notMem_named hw ha).symm _ _) _
  case ld =>
    refine withRegs_setReg fun a b ha hb => ?_
    have hra := State.ne_of_notMem_named hw ha
    have hrb := State.ne_of_notMem_named hr hb
    simp only [State.indirect_eq, State.load_setReg, s.setReg_reg_other hrb.symm]
    exact complete_of_eq_setReg (s.setReg_comm hra.symm _ _) _
  case st =>
    refine withRegs_setReg fun a b ha hb => ?_
    obtain ⟨hra, hrb⟩ := State.ne_of_notMem_named_named hr ha hb
    simp only [State.indirect_eq, s.setReg_reg_other hra.symm, s.setReg_reg_other hrb.symm]
    exact complete_setReg (s.store (s.reg a) (s.reg b)) r v _
  case jmp =>
    refine withReg_setReg fun a ha => ?_
    rw [s.setReg_reg_other (State.ne_of_notMem_named hr ha).symm]
    exact complete_setReg s r v _
  case jeq | jgt | jlt | jne =>
    exact withReg_setReg fun a ha => jumpIf_setReg (ne_of_notMem_named_ite hr ha)
  case push =>
    refine withReg_setReg fun a ha => ?_
    obtain ⟨hrsp, hra⟩ : r ≠ sp ∧ r ≠ a := by simpa using State.notMem_of_notMem_named hr ha
    exact complete_of_eq_setReg (State.push_setReg hrsp fun s1 => s1.setReg_reg_other hra.symm v) _
  case call =>
    refine withReg_setReg fun a ha => ?_
    obtain ⟨hrsp, hra⟩ : r ≠ sp ∧ r ≠ a := by simpa using State.notMem_of_notMem_named hr ha
    simp only [State.push_setReg (value := fun s1 => s1.pc + 2) hrsp fun _ => rfl, State.setReg_reg_other _ hra.symm]
    exact complete_setReg _ r v _
  case pop =>
    refine withReg_setReg fun a ha => ?_
    obtain ⟨hra, hrsp⟩ : r ≠ a ∧ r ≠ sp := by simpa using State.notMem_of_notMem_named hw ha
    refine complete_of_eq_setReg ?_ _
    simp only [State.dropTop, State.top_eq, State.setReg_mem, s.setReg_reg_other hrsp.symm, s.setReg_comm hra.symm,
      State.setReg_reg_other _ hrsp.symm, State.setReg_comm _ hrsp.symm]
  case prn =>
    refine withReg_setReg fun a ha => ?_
    rw [s.setReg_reg_other (State.ne_of_notMem_named hr ha).symm]
    exact complete_setReg (s.emit (s.reg a)) r v _

/-- A register, other than the stack pointer, that the instruction at `pc` does not name has no influence on a step. -/
theorem step_setReg (hsp : r ≠ sp) (hn : ∀ i, s.decoded = .ok i → ∀ b ∈ i.regOperands, ¬ s.names b r) :
    step (s.setReg r v) = Result.onNext (fun t => t.setReg r v) (step s) := by
  rcases step_cases s with ⟨hrun, e⟩ | ⟨hrun, he, e⟩ | ⟨hrun, he, ⟨d, hd⟩, e⟩ | ⟨hrun, he, i, hd, e⟩
  · rw [e]; exact step_halted hrun
  · rw [e]; exact step_boundary (s := s.setReg r v) hrun he
  · rw [e]; exact step_invalid (s := s.setReg r v) hrun he hd
  · have hun : ¬ (r = sp ∨ ∃ b ∈ i.regOperands, (s.setIr s.fetchIr).names b r) := by
      rintro (h | ⟨b, hb, h⟩)
      · exact hsp h
      · exact hn i hd b hb h
    rw [e, ← exec_setReg (mt eq_sp_or_named_of_mem_regReads hun) (mt eq_sp_or_named_of_mem_regWrites hun)]
    exact step_exec (s := s.setReg r v) hrun he hd

end Sys2Proof.Machine
end

section
/-! The statements about the state (10_state.md). -/

namespace Sys2Proof.Machine

/-- Settles O6: every handler keeps the invariant, and the fetch and an invalid opcode touch none of its fields. -/
theorem stepKeepsTheInvariant : Obligations.StepKeepsTheInvariant := by
  intro s t hs e
  have hfetch : (s.setIr s.fetchIr).Inv := ⟨hs.mem, hs.flags, hs.opc⟩
  rcases step_next e with ⟨-, rfl⟩ | ⟨-, -, -, rfl⟩ | ⟨-, -, i, -, e'⟩
  · exact hs
  · exact ⟨hs.mem, hs.flags, hs.opc⟩
  · exact exec_inv hfetch e'

/-- Settles O15: the handler of `CMP` alone writes `fl`. -/
theorem onlyCmpChangesFlags : Obligations.OnlyCmpChangesFlags := by
  intro s t e hfl
  rcases step_next e with ⟨-, rfl⟩ | ⟨-, -, -, rfl⟩ | ⟨-, -, i, hd, e'⟩
  · exact absurd rfl hfl
  · exact absurd rfl hfl
  · rcases exec_fl_cases e' with h | ⟨opA, opB, rfl⟩
    · exact absurd h hfl
    · exact ⟨opA, opB, hd⟩

/-- Settles O20: the advance writes no register, and the handler only those listed. -/
theorem onlyListedRegistersChange : Obligations.OnlyListedRegistersChange := by
  intro i s t e r hr
  obtain ⟨h, n, p, H, rfl, -⟩ := exec_next e
  exact H.reg_of_notMem_regWrites hr

/-- Settles O21, one shared operation of the handlers at a time. -/
theorem unlistedRegistersHaveNoInfluence : Obligations.UnlistedRegistersHaveNoInfluence :=
  fun _ _ _ _ hr hw => exec_setReg hr hw

/-- Settles O22: neither R5 nor R6 is the stack pointer, the one register a handler uses unnamed. -/
theorem imAndIsHaveNoFunction : Obligations.ImAndIsHaveNoFunction := by
  intro s r v hr hn
  have hsp : r ≠ sp := by rcases hr with rfl | rfl <;> decide
  exact step_setReg hsp hn

/-- Settles O23: only the fetch writes `ir`, and nothing writes the parameters. -/
theorem parametersAndIrAfterAStep : Obligations.ParametersAndIrAfterAStep := by
  intro s t e
  rcases step_next e with ⟨hrun, rfl⟩ | ⟨hrun, -, -, rfl⟩ | ⟨hrun, -, i, -, e'⟩
  · simp [hrun]
  · simp [hrun]
  · obtain ⟨hc, hi⟩ := exec_keeps_cfg_ir e'
    simp [hrun, hc, hi]

/-- Settles O1, by the reset table itself (R32). -/
theorem resetGivesTheTabledValues : Obligations.ResetGivesTheTabledValues := by
  intro s
  exact ⟨rfl, rfl, rfl, rfl, rfl, rfl, rfl, rfl, rfl, rfl, rfl, rfl, rfl⟩

/-- Settles O2: the empty memory is canonical, `fl` is 0, and the default map is one that R67 allows. -/
theorem resetMeetsTheInvariant : Obligations.ResetMeetsTheInvariant where
  mem := Memory.wf_nil
  flags := .inl rfl
  opc := by decide

/-- Settles O24: the fetch writes `ir` before anything reads it. -/
theorem oldIrIsUnobservable : Obligations.OldIrIsUnobservable := by
  intro s b hrun
  rcases step_cases s with ⟨hrun', -⟩ | ⟨-, he, e⟩ | ⟨-, he, ⟨d, hd⟩, e⟩ | ⟨-, he, i, hd, e⟩
  · rw [hrun] at hrun'; cases hrun'
  · rw [e]; exact step_boundary (s := s.setIr b) hrun he
  · rw [e]; exact step_invalid (s := s.setIr b) hrun he hd
  · rw [e]; exact step_exec (s := s.setIr b) hrun he hd

end Sys2Proof.Machine
end

section
/-! SUPPORT. The memory as its 256 readings (R40 to R42), the accesses a handler and a step list (R46), and what a step
leaves in memory. -/

namespace Sys2Proof.Machine

/-! ### Readings -/

/-- What any address reads after a write (R42). -/
theorem Memory.read_write {m : Memory} (hm : Memory.wf m) (addr v a : Byte) :
    Memory.read (Memory.write m addr v) a = if a = addr then v else Memory.read m a := by
  split
  next h => exact h ▸ Memory.read_write_same hm addr v
  next h => exact Memory.read_write_other m v h

/-- The entries of a canonical memory are the bytes that do not read as unlisted. -/
theorem Memory.mem_iff_read {m : Memory} (hm : Memory.wf m) (d : Host.Cell) :
    d ∈ m ↔ d.1 < 256 ∧ d.2 ≠ unlistedByte ∧ Memory.read m (BitVec.ofNat 8 d.1) = d.2 := by
  induction m with
  | nil => simp +contextual [eq_comm]
  | cons c m ih =>
    obtain ⟨hlt, hc, hc', hm'⟩ := Memory.wf_cons.1 hm
    rw [List.mem_cons, ih hm', Memory.read_cons, BitVec.toNat_ofNat]
    constructor
    · rintro (rfl | h)
      · exact ⟨hc, hc', if_pos (Nat.mod_eq_of_lt hc).symm⟩
      · have hcd : c.1 < d.1 := hlt d ((ih hm').2 h)
        obtain ⟨hd, hd', hr⟩ := h
        exact ⟨hd, hd', (if_neg (by omega)).trans hr⟩
    · rintro ⟨hd, hd', hr⟩
      split at hr
      next e => exact .inl (Prod.ext (by omega) hr.symm)
      next => exact .inr ⟨hd, hd', hr⟩

/-- A canonical memory lists no entry twice. -/
theorem Memory.wf_nodup {m : Memory} (hm : Memory.wf m) : m.Nodup :=
  hm.1.imp fun h e => absurd (congrArg Prod.fst e) h.ne

/-! ### Listed accesses -/

/-- The accesses of a step are the three of the fetch and the handler's, where the engine runs and can fetch (R46). -/
theorem State.mem_accesses {s : State} {x : Access} :
    x ∈ s.accesses ↔ s.run = .running ∧ s.enters ∧
      (x ∈ [.read s.pc, .read (s.pc + 1), .read (s.pc + 2)] ∨ ∃ i, s.decoded = .ok i ∧ x ∈ handlerAccesses i s) := by
  rw [← State.entryPasses_eq_false]
  cases hr : s.run with
  | halted => simp [State.accesses, hr]
  | running =>
    cases he : s.entryPasses with
    | true => simp [State.accesses, hr, he]
    | false => cases hd : s.decoded <;> simp [State.accesses, hr, he, hd, or_assoc]

/-- Only the handler's accesses can be writes. -/
theorem State.write_mem_accesses {s : State} {a v : Byte} :
    .write a v ∈ s.accesses ↔
      s.run = .running ∧ s.enters ∧ ∃ i, s.decoded = .ok i ∧ .write a v ∈ handlerAccesses i s := by
  simp [State.mem_accesses]

/-- The accesses a handler lists do not depend on `ir`. -/
@[simp] theorem handlerAccesses_setIr (i : Instr) (s : State) (b : Byte) :
    handlerAccesses i (s.setIr b) = handlerAccesses i s := by
  cases i <;> rfl

section

variable {s : State} {opA opB : Byte} {a b : Reg}

/-- `LD` reads the byte at the address in register B. -/
theorem handlerAccesses_ld (ha : s.names opA a) (hb : s.names opB b) :
    handlerAccesses (.ld opA opB) s = [.read (s.reg b)] :=
  (State.named_of_names ha _).trans (State.named_of_names hb _)

/-- `ST` writes register B at the address in register A. -/
theorem handlerAccesses_st (ha : s.names opA a) (hb : s.names opB b) :
    handlerAccesses (.st opA opB) s = [.write (s.reg a) (s.reg b)] :=
  (State.named_of_names ha _).trans (State.named_of_names hb _)

/-- `PUSH` writes the register, read after the decrement, below the stack (D11). -/
theorem handlerAccesses_push (ha : s.names opA a) :
    handlerAccesses (.push opA) s = [.write (s.reg sp - 1) ((s.setReg sp (s.reg sp - 1)).reg a)] :=
  State.named_of_names ha _

/-- `CALL` writes the return address below the stack. -/
theorem handlerAccesses_call (ha : s.names opA a) :
    handlerAccesses (.call opA) s = [.write (s.reg sp - 1) (s.pc + 2)] :=
  State.named_of_names ha _

/-- `POP` reads the byte at the stack pointer. -/
theorem handlerAccesses_pop (ha : s.names opA a) : handlerAccesses (.pop opA) s = [.read (s.reg sp)] :=
  State.named_of_names ha _

end

/-- A handler writes the byte its one write access names, or lists no write and leaves the memory as it is (R46). -/
theorem Handled.write_cases {s h : State} {i : Instr} {n : Next} (H : Handled s i h n) :
    (∃ addr v, h.mem = Memory.write s.mem addr v ∧ handlerAccesses i s = [.write addr v]) ∨
    (h.mem = s.mem ∧ ∀ a v, .write a v ∉ handlerAccesses i s) := by
  cases H
  case st ha hb => exact .inl ⟨_, _, rfl, handlerAccesses_st ha hb⟩
  case push ha => exact .inl ⟨_, _, rfl, handlerAccesses_push ha⟩
  case call ha => exact .inl ⟨_, _, rfl, handlerAccesses_call ha⟩
  case ld ha hb => exact .inr ⟨rfl, by simp [handlerAccesses_ld ha hb]⟩
  case pop ha => exact .inr ⟨rfl, by simp [handlerAccesses_pop ha]⟩
  case ret => exact .inr ⟨rfl, by simp [handlerAccesses]⟩
  all_goals exact .inr ⟨rfl, fun _ _ => List.not_mem_nil⟩

/-- After an instruction, the byte its write access names holds what was written, and every other reads as before. -/
theorem exec_writes {i : Instr} {s t : State} (hm : Memory.wf s.mem) (e : exec i s = .next t) :
    (∀ a v, .write a v ∈ handlerAccesses i s → t.load a = v) ∧
    (∀ a, (∀ v, .write a v ∉ handlerAccesses i s) → t.load a = s.load a) := by
  obtain ⟨h, n, p, H, rfl, -⟩ := exec_next e
  rcases H.write_cases with ⟨addr, v, hmem, hacc⟩ | ⟨hmem, hno⟩
  · have hload (a : Byte) : (h.setPc p).load a = if a = addr then v else s.load a :=
      (congrArg (Memory.read · a) hmem).trans (Memory.read_write hm addr v a)
    constructor
    · intro a w hw
      obtain ⟨rfl, rfl⟩ : a = addr ∧ w = v := by simpa [hacc] using hw
      exact (hload a).trans (if_pos rfl)
    · intro a ha
      have hne : a ≠ addr := by
        rintro rfl
        exact ha v (by simp [hacc])
      exact (hload a).trans (if_neg hne)
  · exact ⟨fun a v hw => absurd hw (hno a v), fun a _ => congrArg (Memory.read · a) hmem⟩

end Sys2Proof.Machine
end

section
/-! SUPPORT. Memory that a step does not list as read has no influence on it (R46): with other bytes there it ends the
same, up to the memory. One lemma per shared operation of the handlers, then all instructions. -/

namespace Sys2Proof.Machine

/-- The state with another memory. -/
def State.withMem (s : State) (m : Memory) : State := { s with mem := m }

@[simp] theorem State.withMem_cfg (s : State) (m : Memory) : (s.withMem m).cfg = s.cfg := rfl
@[simp] theorem State.withMem_mem (s : State) (m : Memory) : (s.withMem m).mem = m := rfl
@[simp] theorem State.withMem_reg (s : State) (m : Memory) (r : Reg) : (s.withMem m).reg r = s.reg r := rfl
@[simp] theorem State.withMem_load (s : State) (m : Memory) (a : Byte) : (s.withMem m).load a = Memory.read m a := rfl

/-- Two outcomes are alike up to the memory: the same stop, or next states that differ in memory only. -/
def Result.SameButMem (x y : Result) : Prop :=
  Result.onNext (fun t => t.withMem []) x = Result.onNext (fun t => t.withMem []) y

variable {s : State} {m : Memory}

/-- The end of a step does not depend on the memory. -/
theorem complete_withMem (h : State) (m : Memory) (n : Next) :
    complete (h.withMem m) n = Result.onNext (fun t => t.withMem m) (complete h n) := by
  cases n with
  | jump p => rfl
  | fallthrough =>
    by_cases ha : h.advances
    · rw [complete_fallthrough ha]; exact complete_fallthrough (h := h.withMem m) ha
    · rw [complete_boundary ha]; exact complete_boundary (h := h.withMem m) ha

/-- Ending in states that differ in memory only. -/
theorem complete_sameButMem {h h' : State} (e : h'.withMem [] = h.withMem []) (n : Next) :
    Result.SameButMem (complete h' n) (complete h n) := by
  rw [Result.SameButMem, ← complete_withMem, ← complete_withMem, e]

/-- Which register an operand names does not depend on the memory. -/
theorem withReg_sameButMem {b : Byte} {k k' : Reg → Result}
    (hk : ∀ a, s.names b a → Result.SameButMem (k' a) (k a)) :
    Result.SameButMem (withReg (s.withMem m) b k') (withReg s b k) := by
  rcases withReg_cases s b k with ⟨a, ha, e⟩ | ⟨hn, e⟩
  · rw [e, withReg_of_names (s := s.withMem m) ha]; exact hk a ha
  · rw [e, withReg_of_none (s := s.withMem m) hn]; rfl

/-- Which registers two operands name does not depend on the memory. -/
theorem withRegs_sameButMem {opA opB : Byte} {k k' : Reg → Reg → Result}
    (hk : ∀ a b, s.names opA a → s.names opB b → Result.SameButMem (k' a b) (k a b)) :
    Result.SameButMem (withRegs (s.withMem m) opA opB k') (withRegs s opA opB k) :=
  withReg_sameButMem fun a ha => withReg_sameButMem fun b hb => hk a b ha hb

/-- The ALU handlers do not depend on the memory. -/
theorem aluHandler_sameButMem (op : AluOp) (a b : Reg) :
    Result.SameButMem (aluHandler op a b (s.withMem m)) (aluHandler op a b s) := by
  simp only [aluHandler, State.withMem_reg]
  cases alu op (s.reg a) (s.reg b) with
  | none => exact complete_sameButMem (by rfl) _
  | some o => cases o <;> exact complete_sameButMem (by rfl) _

/-- A conditional jump does not depend on the memory. -/
theorem jumpIf_sameButMem (c : Bool) (a : Reg) : Result.SameButMem (jumpIf c a (s.withMem m)) (jumpIf c a s) := by
  cases c with
  | false => exact complete_sameButMem (h' := s.withMem m) (h := s) rfl .fallthrough
  | true => exact complete_sameButMem (h' := s.withMem m) (h := s) rfl (.jump (s.reg a))

/-- Memory that a handler does not list as read has no influence on an instruction (R46). -/
theorem exec_sameButMem {i : Instr} (hm : ∀ a, .read a ∈ handlerAccesses i s → Memory.read m a = s.load a) :
    Result.SameButMem (exec i (s.withMem m)) (exec i s) := by
  cases i
  case hlt => exact complete_sameButMem (h' := (s.withMem m).halt) (h := s.halt) rfl .fallthrough
  case nop => exact complete_sameButMem (h' := s.withMem m) (h := s) rfl .fallthrough
  case add | sub | mul | div | mod | and | or | xor | cmp =>
    exact withRegs_sameButMem fun a b _ _ => aluHandler_sameButMem _ a b
  case inc | dec => exact withReg_sameButMem fun a _ => aluHandler_sameButMem _ a a
  case not =>
    refine withReg_sameButMem fun a _ => ?_
    rw [State.withMem_cfg]
    cases s.cfg.not with
    | mask8 => exact aluHandler_sameButMem _ a a
    | refuse => rfl
  case jeq | jgt | jlt | jne => exact withReg_sameButMem fun a _ => jumpIf_sameButMem _ a
  case st => exact withRegs_sameButMem fun _ _ _ _ => complete_sameButMem (by rfl) _
  case ldi | jmp | push | call | prn => exact withReg_sameButMem fun _ _ => complete_sameButMem (by rfl) _
  case ld =>
    refine withRegs_sameButMem fun a b ha hb => ?_
    have hread : Memory.read m (s.reg b) = s.load (s.reg b) := hm _ (by simp [handlerAccesses_ld ha hb])
    simp only [State.indirect_eq, State.withMem_reg, State.withMem_load, hread]
    exact complete_sameButMem (by rfl) _
  case pop =>
    refine withReg_sameButMem fun a ha => ?_
    have hread : Memory.read m (s.reg sp) = s.top := hm _ (by simp [handlerAccesses_pop ha])
    simp only [State.top_eq (s.withMem m), State.withMem_reg, State.withMem_mem, hread]
    exact complete_sameButMem (by rfl) _
  case ret =>
    have hread : Memory.read m (s.reg sp) = s.top := hm _ List.mem_cons_self
    simp only [exec, execRet, State.top_eq (s.withMem m), State.withMem_reg, State.withMem_mem, hread]
    exact complete_sameButMem (by rfl) _

/-- A step that can fetch lists its three bytes as read, so it decodes the same instruction (R82). -/
theorem fetch_withMem (hrun : s.run = .running) (he : s.enters)
    (hm : ∀ a, .read a ∈ s.accesses → Memory.read m a = s.load a) :
    (s.withMem m).fetchIr = s.fetchIr ∧ (s.withMem m).decoded = s.decoded := by
  have hfetch (a : Byte) (ha : .read a ∈ [Access.read s.pc, .read (s.pc + 1), .read (s.pc + 2)]) :
      Memory.read m a = s.load a := hm a (State.mem_accesses.2 ⟨hrun, he, .inl ha⟩)
  have h0 : (s.withMem m).fetchIr = s.fetchIr := hfetch s.pc (by simp)
  have h1 : (s.withMem m).fetchA = s.fetchA := hfetch (s.pc + 1) (by simp)
  have h2 : (s.withMem m).fetchB = s.fetchB := hfetch (s.pc + 2) (by simp)
  exact ⟨h0, by simp only [State.decoded, h0, h1, h2, State.withMem_cfg]⟩

/-- Memory that a step does not list as read has no influence on it (R46). -/
theorem step_sameButMem (hm : ∀ a, .read a ∈ s.accesses → Memory.read m a = s.load a) :
    Result.SameButMem (step (s.withMem m)) (step s) := by
  rcases step_cases s with ⟨hrun, e⟩ | ⟨hrun, he, e⟩ | ⟨hrun, he, ⟨d, hd⟩, e⟩ | ⟨hrun, he, i, hd, e⟩
  · rw [e, step_halted (s := s.withMem m) hrun]; rfl
  · rw [e, step_boundary (s := s.withMem m) hrun he]; rfl
  · obtain ⟨hir, hdec⟩ := fetch_withMem hrun he hm
    rw [e, step_invalid (s := s.withMem m) hrun he (hdec.trans hd), hir]; rfl
  · obtain ⟨hir, hdec⟩ := fetch_withMem hrun he hm
    rw [e, step_exec (s := s.withMem m) hrun he (hdec.trans hd), hir]
    refine exec_sameButMem (s := s.setIr s.fetchIr) fun a ha => ?_
    rw [handlerAccesses_setIr] at ha
    exact hm a (State.mem_accesses.2 ⟨hrun, he, .inr ⟨i, hd, ha⟩⟩)

end Sys2Proof.Machine
end

section
/-! The statements about the memory (20_memory.md). -/

namespace Sys2Proof.Machine

/-- Settles O4, from the reads at the address written and at every other one. -/
theorem writeChangesExactlyOneByte : Obligations.WriteChangesExactlyOneByte :=
  fun _ addr v a hm => Memory.read_write hm addr v a

/-- Settles O5: the readings fix which entries are listed, and the rising addresses fix their order. -/
theorem memoryIsItsReading : Obligations.MemoryIsItsReading := by
  intro m n hm hn hread
  have hmem (d : Host.Cell) : d ∈ m ↔ d ∈ n := by rw [Memory.mem_iff_read hm, Memory.mem_iff_read hn, hread]
  have hperm : m.Perm n := (List.perm_ext_iff_of_nodup (Memory.wf_nodup hm) (Memory.wf_nodup hn)).2 hmem
  exact hperm.eq_of_pairwise (fun _ _ _ _ hcd hdc => absurd hcd hdc.asymm) hm.1 hn.1

/-- Settles O18: only the handler's access can be a write, and the handler writes what it lists. -/
theorem stepWritesOnlyItsAccess : Obligations.StepWritesOnlyItsAccess := by
  intro s t hm e
  rcases step_next e with ⟨hrun, rfl⟩ | ⟨hrun, he, ⟨d, hd⟩, rfl⟩ | ⟨hrun, he, i, hd, e'⟩
  · exact ⟨by simp [State.write_mem_accesses, hrun], fun _ _ => rfl⟩
  · exact ⟨by simp [State.write_mem_accesses, hd], fun _ _ => rfl⟩
  · have hacc (a v : Byte) : .write a v ∈ s.accesses ↔ .write a v ∈ handlerAccesses i (s.setIr s.fetchIr) := by
      simp [State.write_mem_accesses, hrun, he, hd]
    simp only [hacc]
    exact exec_writes (s := s.setIr s.fetchIr) hm e'

/-- Settles O19: the fetch reads its three listed bytes, and the handler only what it lists. -/
theorem stepReadsOnlyItsAccesses : Obligations.StepReadsOnlyItsAccesses :=
  fun _ _ hm => step_sameButMem hm

/-- Settles O25: the next fetch reads the memory that the one write access of `ST` leaves. -/
theorem storeIsSeenByTheNextFetch : Obligations.StoreIsSeenByTheNextFetch := by
  intro s t opA opB a b hm ha hb e
  obtain ⟨hwritten, hkept⟩ := exec_writes hm e
  simp only [handlerAccesses_st ha hb] at hwritten hkept
  split
  next h => exact hwritten t.pc (s.reg b) (by simp [h])
  next h => exact hkept t.pc (by simp [h])

end Sys2Proof.Machine
end

section
/-! SUPPORT. The encoding (R60 to R70): what decoding an opcode byte of the table answers, how a mnemonic and its operand
bytes make up an instruction, how many bytes name an instruction, and what a register operand byte names under each
policy (R63). -/

namespace Sys2Proof

/-! ### Decoding -/

/-- An opcode byte of the table decodes to its mnemonic with the two bytes that follow (R74, R83). -/
theorem Opc.Valid.decode_byteOf {t : Opc} (h : t.Valid) (m : Mnemonic) (opA opB : Byte) :
    decode t (t.byteOf m) opA opB = .ok (m.toInstr opA opB) := by
  simp [decode, h.lookup_byteOf]

/-- A byte that is no opcode of the table decodes to no instruction (R68). -/
theorem decode_of_lookup_eq_none {t : Opc} {b : Byte} (h : t.lookup b = none) (opA opB : Byte) :
    decode t b opA opB = .error (.invalidOpcode b) := by
  simp [decode, h]

/-- What decodes to an instruction begins with the opcode byte of a mnemonic. -/
theorem exists_byteOf_of_decode {t : Opc} {ir opA opB : Byte} {i : Instr} (h : decode t ir opA opB = .ok i) :
    ∃ m, t.byteOf m = ir ∧ m.toInstr opA opB = i := by
  rcases decode_cases t ir opA opB with ⟨-, e⟩ | ⟨m, hm, e⟩
  · rw [e] at h; cases h
  · rw [e] at h; cases h; exact ⟨m, Opc.byteOf_of_lookup hm, rfl⟩

/-! ### Mnemonic and operand bytes -/

/-- An instruction is its mnemonic with its own operand bytes, whatever stands where it has none (R62, R70). -/
theorem Instr.toInstr_operands (i : Instr) (x y : Byte) :
    i.mnemonic.toInstr (i.operands.getD 0 x) (i.operands.getD 1 y) = i := by
  cases i <;> rfl

/-- A mnemonic takes as many of the two candidate operand bytes as its format names, the first before the second (R62). -/
theorem Mnemonic.operands_toInstr (m : Mnemonic) (opA opB : Byte) :
    (m.toInstr opA opB).operands = [opA, opB].take m.format.operandCount := by
  cases m <;> rfl

/-! ### The bytes that name an instruction -/

/-- The opcode numbers of the table, in the order of R66. -/
def Opc.numbers (t : Opc) : List Nat := Mnemonic.all.map fun m => (t.byteOf m).toNat

/-- No two instructions share an opcode number. -/
theorem Opc.Valid.numbers_nodup {t : Opc} (h : t.Valid) : t.numbers.Nodup := by
  have hall : Mnemonic.all.Nodup := by decide
  exact hall.map fun _ _ e => h.injective (BitVec.eq_of_toNat_eq e)

/-- The lookup finds a mnemonic exactly at the opcode numbers of the table. -/
theorem Opc.mem_numbers {t : Opc} {n : Nat} :
    n ∈ t.numbers ↔ n < 256 ∧ ¬ (t.lookup (BitVec.ofNat 8 n)).isNone := by
  simp only [Opc.numbers, List.mem_map, Option.isNone_iff_eq_none, Opc.lookup_eq_none, not_forall, not_not]
  constructor
  · rintro ⟨m, -, rfl⟩
    exact ⟨(t.byteOf m).isLt, m, by simp⟩
  · rintro ⟨hn, m, hm⟩
    exact ⟨m, m.mem_all, by rw [hm, BitVec.toNat_ofNat, Nat.mod_eq_of_lt hn]⟩

/-- The bytes that name an instruction are as many as there are mnemonics (R66, R67). -/
theorem Opc.Valid.countP_lookup {t : Opc} (h : t.Valid) :
    ((List.range 256).countP fun n => ¬ (t.lookup (BitVec.ofNat 8 n)).isNone) = Mnemonic.all.length := by
  have hperm : ((List.range 256).filter fun n => ¬ (t.lookup (BitVec.ofNat 8 n)).isNone).Perm t.numbers := by
    refine (List.perm_ext_iff_of_nodup (List.nodup_range.filter _) h.numbers_nodup).2 fun n => ?_
    simp [Opc.mem_numbers]
  rw [List.countP_eq_length_filter, hperm.length_eq, Opc.numbers, List.length_map]

end Sys2Proof

namespace Sys2Proof.Machine

/-! ### Register operand bytes -/

/-- Under `fault` the bytes that name no register are those out of range (R63). -/
theorem regIndex_fault_isNone (b : Byte) : (regIndex .fault b).isNone = !regInRange b := by
  rw [Bool.eq_iff_iff]
  simp [regIndex_eq_none, regInRange]

/-- Under `mask3` every byte names the register of its bits 2:0 (R63, D10). -/
theorem regIndex_mask3 (b : Byte) : ∃ r, regIndex .mask3 b = some r ∧ r.val = (b.extractLsb' 0 3).toNat := by
  have hbits : (b.extractLsb' 0 3).toNat = b.toNat % 8 := by simp
  by_cases h : b.toNat < 8
  · exact ⟨_, regIndex_of_lt h _, by rw [hbits, Nat.mod_eq_of_lt h]⟩
  · exact ⟨⟨b.toNat % 8, Nat.mod_lt _ (by decide)⟩, by simp [regIndex, h], hbits.symm⟩

end Sys2Proof.Machine
end

section
/-! The statements about the encoding (30_encoding.md). -/

namespace Sys2Proof.Machine

/-- Settles O7: the opcode byte gives back the mnemonic, and mnemonic and operand bytes give back the instruction. -/
theorem decodeOfEncode : Obligations.DecodeOfEncode := by
  intro t ht i x y
  calc decode t ((encode t i).getD 0 x) ((encode t i).getD 1 x) ((encode t i).getD 2 y)
    _ = decode t (t.byteOf i.mnemonic) (i.operands.getD 0 x) (i.operands.getD 1 y) := rfl
    _ = .ok (i.mnemonic.toInstr (i.operands.getD 0 x) (i.operands.getD 1 y)) := ht.decode_byteOf ..
    _ = .ok i := by rw [i.toInstr_operands]

/-- Settles O8: the opcode byte is a mnemonic's, whose operand count stands in its top two bits. -/
theorem encodeOfDecode : Obligations.EncodeOfDecode := by
  intro t ht ir opA opB i hd
  obtain ⟨m, rfl, rfl⟩ := exists_byteOf_of_decode hd
  rw [ht.opcount]
  refine ⟨m.format.operandCount_le, ?_⟩
  rw [encode, Mnemonic.toInstr_mnemonic, Mnemonic.operands_toInstr, Nat.add_comm, List.take_succ_cons]

/-- Settles O10: the 256 bytes are those that name an instruction, one for each of the 27 mnemonics, and the invalid ones;
no mnemonic has three operand bytes. -/
theorem invalidOpcodesNumber229 : Obligations.InvalidOpcodesNumber229 := by
  intro t ht
  refine ⟨?_, fun b hb => ?_, fun b opA opB hb => decode_of_lookup_eq_none hb opA opB⟩
  · have hsplit := List.length_eq_countP_add_countP (fun n => (t.lookup (BitVec.ofNat 8 n)).isNone) (l := List.range 256)
    have h27 : Mnemonic.all.length = 27 := rfl
    rw [List.length_range, ht.countP_lookup, h27, List.countP_eq_length_filter] at hsplit
    omega
  · refine Opc.lookup_eq_none.2 fun m hm => ?_
    have hcount : opcount b = m.format.operandCount := hm ▸ ht.opcount m
    have := m.format.operandCount_le
    omega

/-- Settles O27: under `fault` the bytes above 7 are those that name no register. -/
theorem badRegisterByteFaults : Obligations.BadRegisterByteFaults := by
  intro i s b hp hb
  refine exec_of_unnamed ?_
  simpa only [hp, regIndex_fault_isNone] using hb

/-- Settles O9: each word begins with the opcode byte of its mnemonic, and the default map is one that R67 allows. -/
theorem tableWordsDecode : Obligations.TableWordsDecode := by
  have word := resetMeetsTheInvariant.opc.decode_byteOf
  exact ⟨word .hlt .., word .ldi .., word .mul .., word .and .., word .jgt ..,
    word .push .., word .call .., word .prn ..⟩

/-- Settles O28, one clause for each side of 8 and each policy. -/
theorem registerByteMeaning : Obligations.RegisterByteMeaning :=
  fun p b => ⟨fun h => ⟨_, regIndex_of_lt h p, rfl⟩, fun h => ⟨regIndex_eq_none.2 ⟨rfl, h⟩, regIndex_mask3 b⟩⟩

end Sys2Proof.Machine
end

section
/-! SUPPORT. How a step of the cycle ends (40_step_cycle.md R90 to R93): what a handler that was reached says about its
operands, which handlers halt, and when an instruction completes or raises the boundary fault. -/

namespace Sys2Proof.Machine

/-- A decoded instruction's opcode byte carries the operand count of its format in the top two bits (R67). -/
theorem State.opcount_fetchIr {s : State} {i : Instr} (hv : s.cfg.opc.Valid) (hd : s.decoded = .ok i) :
    opcount s.fetchIr = i.mnemonic.format.operandCount := by
  obtain ⟨m, hm, rfl⟩ := exists_byteOf_of_decode hd
  rw [← hm, hv.opcount, Mnemonic.toInstr_mnemonic]

/-! ### Handlers that were reached -/

variable {s h : State} {i : Instr} {n : Next}

/-- A handler is reached only when every register operand names a register (R63, R186). -/
theorem Handled.names (H : Handled s i h n) : ∀ b ∈ i.regOperands, ∃ r, s.names b r := by
  cases H
  case hlt | nop | ret => exact List.forall_mem_nil _
  case ldi ha | inc ha _ | dec ha _ | not ha _ | jmp ha | jeqTaken ha _ | jeqNot ha _ | jgtTaken ha _ | jgtNot ha _
      | jltTaken ha _ | jltNot ha _ | jneTaken ha _ | jneNot ha _ | push ha | pop ha | call ha | prn ha =>
    exact List.forall_mem_singleton.2 ⟨_, ha⟩
  case ld ha hb | st ha hb | cmp ha hb | add ha hb _ | sub ha hb _ | mul ha hb _ | and ha hb _ | or ha hb _
      | xor ha hb _ | div ha hb _ _ | mod ha hb _ _ | divZero ha hb _ | modZero ha hb _ =>
    exact List.forall_mem_cons.2 ⟨⟨_, ha⟩, List.forall_mem_singleton.2 ⟨_, hb⟩⟩

/-- A handler leaves the advance as the state it began in has it. -/
theorem Handled.advances_iff (H : Handled s i h n) : h.advances ↔ s.advances := by
  obtain ⟨hcfg, hpc, hir⟩ := H.keeps
  rw [State.advances, State.advances, hcfg, hpc, hir]

/-- Only an instruction with fewer than two operand bytes can jump (R84, R89). -/
theorem Handled.eq_fallthrough (H : Handled s i h n) (h2 : i.mnemonic.format.operandCount = 2) : n = .fallthrough := by
  cases H
  case jmp | jeqTaken | jgtTaken | jltTaken | jneTaken | call | ret => cases h2
  all_goals rfl

/-- An instruction with two operand bytes reaches its handler, and falls through, when its register operands name
registers. -/
theorem handled_fallthrough_iff (h2 : i.mnemonic.format.operandCount = 2) :
    (∃ h, Handled s i h .fallthrough) ↔ ∀ b ∈ i.regOperands, ∃ r, s.names b r := by
  constructor
  · rintro ⟨h, H⟩
    exact H.names
  · intro hr
    have hnot : ∀ opA, i ≠ .not opA := by rintro opA rfl; cases h2
    obtain ⟨h, n, H⟩ := handled_of_names hr (.inr hnot)
    obtain rfl := H.eq_fallthrough h2
    exact ⟨h, H⟩

/-- The handlers that halt are `HLT` and, with a zero divisor, `DIV` and `MOD` (R93). -/
theorem Handled.run_eq_halted_iff (H : Handled s i h n) (hrun : s.run = .running) :
    h.run = .halted ↔ i = .hlt ∨ ∃ (opA opB : Byte) (b : Reg),
      (i = .div opA opB ∨ i = .mod opA opB) ∧ s.names opB b ∧ s.reg b = 0 := by
  cases H
  case hlt => simp
  case divZero opA opB a b _ hb h0 => exact iff_of_true rfl (.inr ⟨opA, opB, b, .inl rfl, hb, h0⟩)
  case modZero opA opB a b _ hb h0 => exact iff_of_true rfl (.inr ⟨opA, opB, b, .inr rfl, hb, h0⟩)
  case div opA opB a b y _ hb h0 _ | mod opA opB a b y _ hb h0 _ =>
    refine iff_of_false (by simp [hrun]) ?_
    rintro (hi | ⟨opA', opB', b', hi, hb', h0'⟩)
    · cases hi
    · obtain rfl : opB' = opB := by rcases hi with hi | hi <;> cases hi; rfl
      obtain rfl : b = b' := Option.some.inj (hb.symm.trans hb')
      exact h0 h0'
  all_goals simp [hrun, State.push_eq, State.dropTop]

/-! ### Instructions that complete, and instructions that pass the boundary -/

/-- An instruction completes when its register operands name registers, `NOT` has its meaning, and the advance fits. -/
theorem exec_completes (hr : ∀ b ∈ i.regOperands, ∃ r, s.names b r) (hnot : s.cfg.not = .mask8) (ha : s.advances) :
    ∃ t, exec i s = .next t := by
  obtain ⟨h, n, H⟩ := handled_of_names hr (.inl hnot)
  rw [H.exec_eq]
  cases n with
  | jump p => exact ⟨_, rfl⟩
  | fallthrough => exact ⟨_, complete_fallthrough (H.advances_iff.2 ha)⟩

/-- The end of a step raises `Undefined_Boundary` exactly when it falls through where the advance does not fit (R90 (b)). -/
theorem complete_boundary_iff {p : Byte} :
    complete h n = .fault (.undefinedBoundary p) ↔ p = h.pc ∧ n = .fallthrough ∧ ¬ h.advances := by
  cases n with
  | jump q => simp [complete]
  | fallthrough =>
    by_cases ha : h.advances
    · simp [complete_fallthrough ha, ha]
    · simp [complete_boundary ha, ha, eq_comm]

/-- An instruction raises `Undefined_Boundary` exactly when its handler falls through where the advance does not fit. -/
theorem exec_boundary_iff {p : Byte} :
    exec i s = .fault (.undefinedBoundary p) ↔ p = s.pc ∧ ¬ s.advances ∧ ∃ h, Handled s i h .fallthrough := by
  constructor
  · intro e
    rcases exec_cases i s with ⟨h, n, H, e'⟩ | ⟨b, -, -, e'⟩ | ⟨opA, -, -, e'⟩
    · obtain ⟨rfl, rfl, ha⟩ := complete_boundary_iff.1 (e'.symm.trans e)
      obtain ⟨-, hpc, -⟩ := H.keeps
      exact ⟨hpc, mt H.advances_iff.2 ha, h, H⟩
    · rw [e'] at e; cases e
    · rw [e'] at e; cases e
  · rintro ⟨rfl, ha, h, H⟩
    obtain ⟨-, hpc, -⟩ := H.keeps
    exact H.exec_eq.trans (complete_boundary_iff.2 ⟨hpc.symm, rfl, mt H.advances_iff.1 ha⟩)

/-- Under `wrap`, `mask3` and `mask8` every step answers a next state. -/
theorem step_completes (hb : s.cfg.boundary = .wrap) (hr : s.cfg.regidx = .mask3) (hnot : s.cfg.not = .mask8) :
    ∃ t, step s = .next t := by
  rcases step_cases s with ⟨-, e⟩ | ⟨-, he, -⟩ | ⟨-, -, -, e⟩ | ⟨-, -, i, -, e⟩
  · exact ⟨_, e⟩
  · exact absurd (.inl hb) he
  · exact ⟨_, e⟩
  · rw [e]
    refine exec_completes (fun b _ => ?_) hnot (.inl hb)
    obtain ⟨r, hnames, -⟩ := regIndex_mask3 b
    exact ⟨r, by simpa only [State.names, State.setIr_cfg, hr] using hnames⟩

end Sys2Proof.Machine
end

section
/-! The statements about the step cycle (40_step_cycle.md). -/

namespace Sys2Proof.Machine

/-- Settles O13, by induction on the number of steps. -/
theorem haltedIsTerminal : Obligations.HaltedIsTerminal := by
  intro n s hrun
  induction n with
  | zero => rfl
  | succ n ih =>
    have hstep : Sys2Proof.core.step s = .next s := step_halted hrun
    simpa only [Host.Core.run, hstep] using ih

/-- Settles O14: the advance leaves the run state as the handler left it, and the fetch does not write it. -/
theorem exactlyThreeWaysToHalt : Obligations.ExactlyThreeWaysToHalt := by
  refine ⟨fun s => ⟨rfl, rfl⟩, fun s t hrun e => ?_⟩
  rcases step_next e with ⟨hhalted, -⟩ | ⟨-, -, hd, rfl⟩ | ⟨-, -, i, hd, e'⟩
  · rw [hrun] at hhalted; cases hhalted
  · exact iff_of_true rfl (.inl hd)
  · obtain ⟨h, n, p, H, rfl, -⟩ := exec_next e'
    simpa [hd, State.names] using H.run_eq_halted_iff hrun

/-- Settles O26: at entry by the fetch, and otherwise by an advance from `0xFD` past three bytes, since no instruction is
longer and none of that length jumps. -/
theorem boundaryFaultsExactly : Obligations.BoundaryFaultsExactly := by
  intro s p hrun hb hv
  have henters : s.enters ↔ ¬ 0xFE ≤ s.pc.toNat := by simp [State.enters, hb]
  by_cases he : s.enters
  · have hlow := henters.1 he
    cases hd : s.decoded with
    | error d => simp [step_invalid hrun he hd, hlow]
    | ok i =>
      have hcount := s.opcount_fetchIr hv hd
      have hle := i.mnemonic.format.operandCount_le
      have hpast : ¬ (s.setIr s.fetchIr).advances ↔ s.pc = 0xFD ∧ opcount s.fetchIr = 2 := by
        have hpc : s.pc = 0xFD ↔ s.pc.toNat = 0xFD := BitVec.toNat_inj.symm
        simp only [State.advances, State.setIr_cfg, State.setIr_pc, State.setIr_ir, hb, hpc, reduceCtorEq, false_or]
        omega
      have hreach (h2 : opcount s.fetchIr = 2) := handled_fallthrough_iff (s := s.setIr s.fetchIr) (hcount ▸ h2)
      rw [step_exec hrun he hd, exec_boundary_iff, hpast, and_assoc]
      simp only [hlow, false_or, Except.ok.injEq, exists_eq_left']
      exact and_congr_right fun _ => and_congr_right fun _ => and_congr_right hreach
  · have hhigh : 0xFE ≤ s.pc.toNat := not_not.1 (mt henters.2 he)
    simp [step_boundary hrun he, hhigh, eq_comm]

/-- Settles O30, by induction on the length of the run: a step keeps the policies. -/
theorem nothingStopsUnderWrapMask3Mask8 : Obligations.NothingStopsUnderWrapMask3Mask8 := by
  intro n
  induction n with
  | zero => exact fun _ _ _ _ => trivial
  | succ n ih =>
    intro s hb hr hnot
    obtain ⟨t, e⟩ := step_completes hb hr hnot
    obtain ⟨hcfg, -, -⟩ := parametersAndIrAfterAStep s t e
    exact ⟨t, e, ih t (hcfg ▸ hb) (hcfg ▸ hr) (hcfg ▸ hnot)⟩

/-- Settles O31: register bytes below 8 name registers under either policy, and no instruction is longer than three
bytes. -/
theorem wellFormedStepCompletes : Obligations.WellFormedStepCompletes := by
  intro s i hrun hv hnot hpc hd hwf
  have he : s.enters := .inr (by omega)
  have hlen : opcount s.fetchIr ≤ 2 := s.opcount_fetchIr hv hd ▸ i.mnemonic.format.operandCount_le
  have hadv : (s.setIr s.fetchIr).advances := .inr (by simp only [State.setIr_pc, State.setIr_ir]; omega)
  rw [step_exec hrun he hd]
  refine exec_completes (fun b hb => ?_) hnot hadv
  have hlt : b.toNat < 8 := of_decide_eq_true (List.all_eq_true.1 hwf b hb)
  exact ⟨_, regIndex_of_lt hlt _⟩

/-- Settles O11: the three bytes are those the fetch reads. -/
theorem stepRunsTheDecodedInstruction : Obligations.StepRunsTheDecodedInstruction :=
  fun _ _ hrun he hd => step_exec hrun he hd

/-- Settles O12: the opcode of no mnemonic decodes to no instruction. -/
theorem invalidOpcodeReportsAndHalts : Obligations.InvalidOpcodeReportsAndHalts :=
  fun _ hrun he hinvalid => step_invalid hrun he (decode_of_lookup_eq_none (Opc.lookup_eq_none.2 hinvalid) _ _)

end Sys2Proof.Machine
end

section
/-! SUPPORT. What the ALU's reduction, its division and its comparison answer (41_alu.md R102 to R108, R113). -/

namespace Sys2Proof.Machine

/-- Reduction of an exact result, by the residue the result has modulo 256. -/
theorem wrap8_eq_ofNat {z : Int} {n : Nat} (h : z % 256 = n) : wrap8 z = BitVec.ofNat 8 n := by
  apply BitVec.eq_of_toNat_eq
  have hz : (wrap8 z).toNat = (z % 256).toNat := BitVec.toNat_ofInt z
  rw [hz, h, BitVec.toNat_ofNat]
  omega

/-- `DIV` by a divisor that is not zero is the unsigned quotient (R105, D7). -/
theorem alu_div {b : Byte} (a : Byte) (hb : b ≠ 0) : alu .div a b = some (.value (a / b)) := by
  have hb' : b.toNat ≠ 0 := (BitVec.toNat_pos_of_ne_zero hb).ne'
  simp [alu, hb', BitVec.udiv_def]

/-- `MOD` by a divisor that is not zero is the unsigned remainder (R106). -/
theorem alu_mod {b : Byte} (a : Byte) (hb : b ≠ 0) : alu .mod a b = some (.value (a % b)) := by
  have hb' : b.toNat ≠ 0 := (BitVec.toNat_pos_of_ne_zero hb).ne'
  simp [alu, hb', BitVec.umod_def]

/-- Everything a comparison can answer: equal and E, greater and G, or less and L. -/
theorem compareFlags_cases (a b : Byte) :
    (a = b ∧ compareFlags a b = 0b001) ∨ (b.toNat < a.toNat ∧ compareFlags a b = 0b010) ∨
      (a.toNat < b.toNat ∧ compareFlags a b = 0b100) := by
  unfold compareFlags
  split
  next heq => exact .inl ⟨BitVec.eq_of_toNat_eq heq, rfl⟩
  next hne =>
    split
    next hgt => exact .inr (.inl ⟨hgt, rfl⟩)
    next hle => exact .inr (.inr ⟨by omega, rfl⟩)

end Sys2Proof.Machine
end

section
/-! The statements about the ALU (41_alu.md). -/

namespace Sys2Proof.Machine

/-- Settles O34: the ALU's quotient and remainder are those of unsigned division, and a zero divisor has no answer. -/
theorem aluDivModIsEuclidean : Obligations.AluDivModIsEuclidean := by
  refine fun a b => ⟨fun hb => ⟨a / b, a % b, alu_div a hb, alu_mod a hb, ?_, ?_⟩, fun hb => ⟨?_, ?_⟩⟩
  · rw [BitVec.toNat_udiv, BitVec.toNat_umod]
    exact (Nat.div_add_mod a.toNat b.toNat).symm
  · rw [BitVec.toNat_umod]
    exact Nat.mod_lt _ (BitVec.toNat_pos_of_ne_zero hb)
  · exact alu_eq_none.2 ⟨.inl rfl, hb⟩
  · exact alu_eq_none.2 ⟨.inr rfl, hb⟩

/-- Settles O32: each exact result has the stated number as its residue modulo 256; for `SUB` and `DEC` that number is
taken from the exact result plus 256, so that it is not negative. -/
theorem aluArithmeticIsModulo256 : Obligations.AluArithmeticIsModulo256 := by
  intro a b
  have ha := a.isLt
  have hb := b.isLt
  have hadd : ((a.toNat + b.toNat : Int)) % 256 = ((a.toNat + b.toNat) % 256 : Nat) := by omega
  have hsub : ((a.toNat - b.toNat : Int)) % 256 = ((a.toNat + 256 - b.toNat) % 256 : Nat) := by omega
  have hmul : ((a.toNat * b.toNat : Int)) % 256 = (a.toNat * b.toNat % 256 : Nat) := (Int.natCast_emod _ _).symm
  have hinc : ((a.toNat + 1 : Int)) % 256 = ((a.toNat + 1) % 256 : Nat) := by omega
  have hdec : ((a.toNat - 1 : Int)) % 256 = ((a.toNat + 255) % 256 : Nat) := by omega
  simp only [alu, wrap8_eq_ofNat hadd, wrap8_eq_ofNat hsub, wrap8_eq_ofNat hmul, wrap8_eq_ofNat hinc,
    wrap8_eq_ofNat hdec, and_self]

/-- Settles O35, by the three outcomes of the comparison: each excludes the other two and sets its own bit alone. -/
theorem aluCompareSetsExactlyOne : Obligations.AluCompareSetsExactlyOne := by
  intro a b
  refine ⟨compareFlags a b, rfl, ?_⟩
  rcases compareFlags_cases a b with ⟨rfl, hf⟩ | ⟨hgt, hf⟩ | ⟨hlt, hf⟩
  · simp [hf, flagE, flagG, flagL]
  · have hne : a ≠ b := by rintro rfl; omega
    simp [hf, flagE, flagG, flagL, hne, hgt, hgt.le]
  · have hne : a ≠ b := by rintro rfl; omega
    simp [hf, flagE, flagG, flagL, hne, hlt, hlt.le]

/-- Settles O33, by what a bit of each word operation is. -/
theorem aluBitwiseIsBitByBit : Obligations.AluBitwiseIsBitByBit :=
  fun _ _ => ⟨⟨_, rfl, fun _ _ => BitVec.getLsbD_and⟩, ⟨_, rfl, fun _ _ => BitVec.getLsbD_or⟩,
    ⟨_, rfl, fun _ _ => BitVec.getLsbD_xor⟩⟩

end Sys2Proof.Machine
end

section
/-! SUPPORT. The next state in full of an instruction whose handler falls through (R89). -/

namespace Sys2Proof.Machine

/-- A handler that falls through where the advance fits ends the instruction in its own state, with `pc` past the
instruction (R89, R90 (b)). -/
theorem Handled.exec_fallthrough {s h : State} {i : Instr} (H : Handled s i h .fallthrough) (ha : s.advances) :
    exec i s = .next (h.setPc (BitVec.ofNat 8 (s.pc.toNat + 1 + opcount s.ir))) := by
  obtain ⟨-, hpc, hir⟩ := H.keeps
  rw [H.exec_eq, complete_fallthrough (H.advances_iff.2 ha), hpc, hir]

end Sys2Proof.Machine
end

section
/-! The statement about `HLT` (42_halt.md). -/

namespace Sys2Proof.Machine

/-- Settles O36: the handler of `HLT` halts and, like any other that does not jump, falls through to the advance (D12). -/
theorem hltHalts : Obligations.HltHalts :=
  fun _ ha => Handled.hlt.exec_fallthrough ha

end Sys2Proof.Machine
end

section
/-! The statements about data movement (43_data_movement.md). No handler of this family jumps, so each next state is the
handler's own, advanced (`Handled.exec_fallthrough`). -/

namespace Sys2Proof.Machine

/-- Settles O40: the handler stores one byte, and reading that memory back is the rule of a write (R42), at the address
(`read_write_same`) and elsewhere (`read_write_other`). -/
theorem stStoresAtTheAddressInA : Obligations.StStoresAtTheAddressInA := by
  intro s opA opB a b hm ha hb hadv
  refine ⟨Memory.write s.mem (s.reg a) (s.reg b), ?next, ?written, ?others⟩
  case next => exact (Handled.st ha hb).exec_fallthrough hadv
  case written => exact Memory.read_write_same hm _ _
  case others => exact fun _ hx => Memory.read_write_other _ _ hx

/-- Settles O37: the handler of `NOP` leaves its state as it is (R128), so only the advance is seen. -/
theorem nopOnlyAdvances : Obligations.NopOnlyAdvances :=
  fun _ hadv => Handled.nop.exec_fallthrough hadv

/-- Settles O38: the immediate is operand byte B itself (R64), and no register is special as its target. -/
theorem ldiLoadsTheImmediate : Obligations.LdiLoadsTheImmediate :=
  fun _ _ _ _ ha hadv => (Handled.ldi ha).exec_fallthrough hadv

/-- Settles O39: the address is read from register B before register A is written (R126), also where they are one. -/
theorem ldLoadsFromTheAddressInB : Obligations.LdLoadsFromTheAddressInB :=
  fun _ _ _ _ _ ha hb hadv => (Handled.ld ha hb).exec_fallthrough hadv

end Sys2Proof.Machine
end

section
/-! The statements about arithmetic (44_arithmetic.md). A handler of this family writes what the ALU answers to register A,
or raises `DivideByZero`, and falls through (`Handled.exec_fallthrough`). -/

namespace Sys2Proof.Machine

/-- Settles O41: the three results are what the ALU answers modulo 256 (`aluArithmeticIsModulo256`). -/
theorem addSubMulWriteTheResult : Obligations.AddSubMulWriteTheResult := by
  intro s opA opB a b ha hb hadv
  obtain ⟨hadd, hsub, hmul, -, -⟩ := aluArithmeticIsModulo256 (s.reg a) (s.reg b)
  refine ⟨?add, ?sub, ?mul⟩
  case add => exact (Handled.add ha hb hadd).exec_fallthrough hadv
  case sub => exact (Handled.sub ha hb hsub).exec_fallthrough hadv
  case mul => exact (Handled.mul ha hb hmul).exec_fallthrough hadv

/-- Settles O42: for a divisor that is not zero the ALU answers unsigned division (`alu_div`, `alu_mod`), which is that of
the numbers. -/
theorem divModWriteTheResult : Obligations.DivModWriteTheResult := by
  intro s opA opB a b ha hb h0 hadv
  have hdiv := alu_div (s.reg a) h0
  have hmod := alu_mod (s.reg a) h0
  rw [BitVec.udiv_def] at hdiv
  rw [BitVec.umod_def] at hmod
  refine ⟨?div, ?mod⟩
  case div => exact (Handled.div ha hb h0 hdiv).exec_fallthrough hadv
  case mod => exact (Handled.mod ha hb h0 hmod).exec_fallthrough hadv

/-- Settles O44: both counts are what the ALU answers modulo 256 (`aluArithmeticIsModulo256`), with the register as each
operand. -/
theorem incDecWrap : Obligations.IncDecWrap := by
  intro s opA a ha hadv
  obtain ⟨-, -, -, hinc, hdec⟩ := aluArithmeticIsModulo256 (s.reg a) (s.reg a)
  refine ⟨?inc, ?dec⟩
  case inc => exact (Handled.inc ha hinc).exec_fallthrough hadv
  case dec => exact (Handled.dec ha hdec).exec_fallthrough hadv

/-- Settles O43: with a zero divisor both handlers leave the state of the fatal condition, no register written (R182), and
fall through to the advance (D12). -/
theorem zeroDivisorReportsAndHalts : Obligations.ZeroDivisorReportsAndHalts := by
  rintro s opA opB a b ha hb h0 hadv i (rfl | rfl)
  · exact (Handled.divZero ha hb h0).exec_fallthrough hadv
  · exact (Handled.modZero ha hb h0).exec_fallthrough hadv

end Sys2Proof.Machine
end

section
/-! SUPPORT. `NOT` under each policy (41_alu.md R112, D6): the complement as a number, and the refusal. -/

namespace Sys2Proof.Machine

/-- The complement of a byte is 255 minus it (R112). -/
theorem complement_eq_ofNat (v : Byte) : ~~~v = BitVec.ofNat 8 (255 - v.toNat) := by
  apply BitVec.eq_of_toNat_eq
  rw [BitVec.toNat_not, BitVec.toNat_ofNat]
  omega

/-- A withheld `NOT` whose operand names a register is refused by name (D6). -/
theorem exec_not_of_refuse {s : State} {opA : Byte} {a : Reg} (ha : s.names opA a) (hp : s.cfg.not = .refuse) :
    exec (.not opA) s = .refused .notWithheld :=
  (withReg_of_names ha _).trans (by simp [hp])

end Sys2Proof.Machine
end

section
/-! The statements about the bitwise group (45_bitwise.md). Where it runs, a handler of this family writes what the ALU
answers to register A and falls through (`Handled.exec_fallthrough`). -/

namespace Sys2Proof.Machine

/-- Settles O46: where `NOT` is given its meaning the handler writes the complement, as a number 255 minus the value
(`complement_eq_ofNat`); where it is withheld there is no handler to run (`exec_not_of_refuse`). -/
theorem notComplements : Obligations.NotComplements := by
  intro s opA a ha
  refine ⟨?mask8, ?refuse⟩
  case mask8 =>
    intro hp hadv
    have hnot := (Handled.not ha hp).exec_fallthrough hadv
    rw [complement_eq_ofNat] at hnot
    exact hnot
  case refuse => exact exec_not_of_refuse ha

/-- Settles O45: the ALU answers the word operation itself (R109 to R111), also where registers A and B are one. -/
theorem andOrXorWriteTheResult : Obligations.AndOrXorWriteTheResult := by
  intro s opA opB a b ha hb hadv
  refine ⟨?and, ?or, ?xor⟩
  case and => exact (Handled.and ha hb rfl).exec_fallthrough hadv
  case or => exact (Handled.or ha hb rfl).exec_fallthrough hadv
  case xor => exact (Handled.xor ha hb rfl).exec_fallthrough hadv

end Sys2Proof.Machine
end

section
/-! SUPPORT. The next state in full of an instruction whose handler jumps (R84, R87). -/

namespace Sys2Proof.Machine

/-- A handler that jumps ends the instruction in its own state, with `pc` at its address; no advance is made (R87). -/
theorem Handled.exec_jump {s h : State} {i : Instr} {p : Byte} (H : Handled s i h (.jump p)) :
    exec i s = .next (h.setPc p) :=
  H.exec_eq

end Sys2Proof.Machine
end

section
/-! SUPPORT. The flags of a comparison by equality of the operands (R113, D8), and the condition of `JNE` by the flag E
(R155, D9). -/

namespace Sys2Proof.Machine

/-- A comparison finds its operands equal as numbers exactly where they are the same byte. -/
theorem compareFlags_eq_ite (a b : Byte) :
    compareFlags a b =
      if a = b then 0b00000001 else if b.toNat < a.toNat then 0b00000010 else 0b00000100 := by
  simp only [compareFlags, BitVec.toNat_inj]

theorem condNe_eq_true_iff {fl : Byte} : condNe fl = true ↔ fl.getLsbD 0 = false :=
  Bool.not_eq_eq_eq_not

theorem condNe_eq_false_iff {fl : Byte} : condNe fl = false ↔ fl.getLsbD 0 = true :=
  Bool.not_eq_eq_eq_not

end Sys2Proof.Machine
end

section
/-! The statements about compare and branch (46_compare_branch.md). `CMP` and an untaken jump fall through
(`Handled.exec_fallthrough`); `JMP` and a taken jump end at the register's value (`Handled.exec_jump`). -/

namespace Sys2Proof.Machine

/-- Settles O47: the handler writes the flags of the comparison and nothing else, and falls through; comparing the bytes
is comparing the numbers (`compareFlags_eq_ite`). -/
theorem cmpWritesAllFlags : Obligations.CmpWritesAllFlags := by
  intro s opA opB a b ha hb hadv
  have hcmp := (Handled.cmp ha hb).exec_fallthrough hadv
  rw [compareFlags_eq_ite] at hcmp
  exact hcmp

/-- Settles O49: each jump's handler leaves the state as it is, and its condition decides between the register's value and
the fall-through; `JNE` tests E for 0 (`condNe_eq_true_iff`, `condNe_eq_false_iff`). -/
theorem branchesTestTheirFlag : Obligations.BranchesTestTheirFlag := by
  intro s opA a ha
  refine ⟨?jeqTaken, ?jgtTaken, ?jltTaken, ?jneTaken, fun hadv => ⟨?jeqNot, ?jgtNot, ?jltNot, ?jneNot⟩⟩
  case jeqTaken => exact fun hE => (Handled.jeqTaken ha hE).exec_jump
  case jgtTaken => exact fun hG => (Handled.jgtTaken ha hG).exec_jump
  case jltTaken => exact fun hL => (Handled.jltTaken ha hL).exec_jump
  case jneTaken => exact fun hE => (Handled.jneTaken ha (condNe_eq_true_iff.2 hE)).exec_jump
  case jeqNot => exact fun hE => (Handled.jeqNot ha hE).exec_fallthrough hadv
  case jgtNot => exact fun hG => (Handled.jgtNot ha hG).exec_fallthrough hadv
  case jltNot => exact fun hL => (Handled.jltNot ha hL).exec_fallthrough hadv
  case jneNot => exact fun hE => (Handled.jneNot ha (condNe_eq_false_iff.2 hE)).exec_fallthrough hadv

/-- Settles O48: the handler leaves the state as it is and jumps, so no advance is made. -/
theorem jmpJumps : Obligations.JmpJumps :=
  fun _ _ _ ha => (Handled.jmp ha).exec_jump

end Sys2Proof.Machine
end

section
/-! SUPPORT. The stack discipline (47_stack.md R160, R161): what a push leaves in registers and memory, and what the pop
after it undoes. -/

namespace Sys2Proof.Machine

variable {s : State}

/-- An instruction that answers a next state ends in its handler's state, with some `pc`. -/
theorem Handled.eq_setPc_of_exec {t h : State} {i : Instr} {n : Next} (H : Handled s i h n) (e : exec i s = .next t) :
    ∃ p, t = h.setPc p := by
  rw [H.exec_eq] at e
  rcases complete_cases h n with ⟨p, e', -⟩ | ⟨e', -⟩
  · rw [e'] at e; cases e; exact ⟨p, rfl⟩
  · rw [e'] at e; cases e

/-- The pushed byte is read back below the old top; it is computed after the decrement (D11). -/
theorem State.load_push (hm : Memory.wf s.mem) (value : State → Byte) :
    (s.push value).load (s.reg sp - 1) = value (s.setReg sp (s.reg sp - 1)) :=
  Memory.read_write_same hm _ _

/-- A pushed register is its value, or for the stack pointer itself the decremented one (D11). -/
theorem State.load_push_reg (hm : Memory.wf s.mem) (a : Reg) :
    (s.push fun s1 => s1.reg a).load (s.reg sp - 1) = if a = sp then s.reg sp - 1 else s.reg a :=
  (State.load_push hm _).trans (s.setReg_reg sp a _)

/-- A push leaves every byte but the one below the old top alone. -/
theorem State.load_push_other (value : State → Byte) {x : Byte} (hx : x ≠ s.reg sp - 1) :
    (s.push value).load x = s.load x :=
  Memory.read_write_other _ _ hx

/-- The pushed byte is the new top of the stack. -/
theorem State.top_push (hm : Memory.wf s.mem) (value : State → Byte) :
    (s.push value).top = value (s.setReg sp (s.reg sp - 1)) := by
  have hsp : (s.push value).reg sp = s.reg sp - 1 := State.setReg_reg_same s sp _
  rw [← State.load_push hm value, ← hsp]
  rfl

/-- Loading a register with the top that a push of it left changes nothing, the stack pointer included (R164, D11). -/
theorem State.setReg_top_push_reg (hm : Memory.wf s.mem) (a : Reg) :
    (s.push fun s1 => s1.reg a).setReg a (s.push fun s1 => s1.reg a).top = s.push fun s1 => s1.reg a := by
  have htop : (s.push fun s1 => s1.reg a).top = (s.push fun s1 => s1.reg a).reg a :=
    State.top_push hm fun s1 => s1.reg a
  rw [htop, State.setReg_self]

/-- Dropping what was pushed restores every register, whichever way the pointer wraps (R161). -/
theorem State.regs_dropTop_push (value : State → Byte) : (s.push value).dropTop.regs = s.regs := by
  have hsp : (s.push value).reg sp + 1 = s.reg sp := by simp [State.push_eq]
  calc (s.push value).dropTop.regs
      = ((s.setReg sp (s.reg sp - 1)).setReg sp ((s.push value).reg sp + 1)).regs := rfl
    _ = s.regs := by rw [hsp, State.setReg_setReg, State.setReg_self]

/-- Loading a register and then incrementing the stack pointer: the pointer itself is loaded first, then counted (D11). -/
theorem State.dropTop_setReg (a : Reg) (v : Byte) :
    (s.setReg a v).dropTop = { s with
      regs := if a = sp then s.regs.set sp (v + 1) else (s.regs.set a v).set sp (s.reg sp + 1) } := by
  split
  next h => rw [h, State.dropTop, State.setReg_reg_same, State.setReg_setReg]; rfl
  next h => rw [State.dropTop, State.setReg_reg_other _ (Ne.symm h)]; rfl

end Sys2Proof.Machine
end

section
/-! The statements about the stack group (47_stack.md). Both handlers fall through (`Handled.exec_fallthrough`). -/

namespace Sys2Proof.Machine

/-- Settles O50: the handler is a push of the register, which is read back below the old top (`load_push_reg`) and leaves
every other byte alone (`load_push_other`). -/
theorem pushWritesBelowTheStack : Obligations.PushWritesBelowTheStack := by
  intro s opA a hm ha hadv
  refine ⟨(s.push fun s1 => s1.reg a).mem, ?next, ?written, ?others⟩
  case next => exact (Handled.push ha).exec_fallthrough hadv
  case written => exact State.load_push_reg hm a
  case others => exact fun _ hx => State.load_push_other _ hx

/-- Settles O51: the handler loads the register and then increments the stack pointer, which for `R7` is the byte loaded
(`dropTop_setReg`). -/
theorem popReadsTheTopOfTheStack : Obligations.PopReadsTheTopOfTheStack := by
  intro s opA a ha hadv
  have hpop := (Handled.pop ha).exec_fallthrough hadv
  rw [State.dropTop_setReg] at hpop
  exact hpop

/-- Settles O55: `POP` loads the register with what it holds since the push's decrement (`setReg_top_push_reg`), and its
increment undoes that decrement (`regs_dropTop_push`); the byte below the old top stays (`load_push_reg`). -/
theorem pushThenPopRestores : Obligations.PushThenPopRestores := by
  intro s t u op ir a hm ha hpush hpop
  obtain ⟨p, rfl⟩ := (Handled.push ha).eq_setPc_of_exec hpush
  obtain ⟨q, rfl⟩ := Handled.eq_setPc_of_exec (s := ((s.push fun s1 => s1.reg a).setPc p).setIr ir) (.pop ha) hpop
  refine ⟨?regs, ?copy⟩
  case regs =>
    calc ((s.push fun s1 => s1.reg a).setReg a (s.push fun s1 => s1.reg a).top).dropTop.regs
        = (s.push fun s1 => s1.reg a).dropTop.regs := by rw [State.setReg_top_push_reg hm a]
      _ = s.regs := State.regs_dropTop_push _
  case copy => exact State.load_push_reg hm a

end Sys2Proof.Machine
end

section
/-! SUPPORT. The registers after a push (47_stack.md R160). -/

namespace Sys2Proof.Machine

/-- A push moves the stack pointer down and leaves every other register alone. -/
theorem State.reg_push (s : State) (value : State → Byte) (q : Reg) :
    (s.push value).reg q = if q = sp then s.reg sp - 1 else s.reg q :=
  s.setReg_reg sp q _

end Sys2Proof.Machine
end

section
/-! The statements about subroutines (48_subroutine.md). Both handlers jump (`Handled.exec_jump`). -/

namespace Sys2Proof.Machine

/-- Settles O52: the handler is a push of `pc + 2`, which is read back below the old top (`load_push`) and leaves every
other byte alone (`load_push_other`); the target is read after it (`reg_push`, D11). -/
theorem callPushesTheReturnAddress : Obligations.CallPushesTheReturnAddress := by
  intro s opA a hm ha
  refine ⟨(s.push fun s1 => s1.pc + 2).mem, ?next, ?written, ?others⟩
  case next =>
    have hcall := (Handled.call ha).exec_jump
    rw [State.reg_push] at hcall
    exact hcall
  case written => exact State.load_push hm _
  case others => exact fun _ hx => State.load_push_other _ hx

/-- Settles O53: the handler drops the top of the stack and jumps to the byte that was there. -/
theorem retPopsTheProgramCounter : Obligations.RetPopsTheProgramCounter :=
  fun _ => Handled.ret.exec_jump

/-- Settles O56: the top of the stack is the byte the `CALL` pushed (`top_push`), and one increment undoes its decrement,
whichever way the pointer wraps. -/
theorem callThenRetReturns : Obligations.CallThenRetReturns := by
  intro s t u w op a hm ha hcall hsp hbyte hret
  obtain ⟨p, rfl⟩ := (Handled.call ha).eq_setPc_of_exec hcall
  obtain rfl := Host.Outcome.next.inj (Handled.ret.exec_jump.symm.trans hret)
  refine ⟨?pc, ?sp⟩
  case pc =>
    calc u.top
        = (s.push fun s1 => s1.pc + 2).top := hbyte
      _ = s.pc + 2 := State.top_push hm _
  case sp =>
    calc u.dropTop.reg sp
        = u.reg sp + 1 := State.setReg_reg_same u sp _
      _ = (s.push fun s1 => s1.pc + 2).reg sp + 1 := congrArg (· + 1) hsp
      _ = s.reg sp := by rw [State.reg_push, if_pos rfl, BitVec.sub_add_cancel]

end Sys2Proof.Machine
end

section
/-! SUPPORT. What a handler does to the PRN trace (49_output.md R170). -/

namespace Sys2Proof.Machine

/-- A handler leaves the PRN trace as it is, or is that of `PRN` and adds the value of the register named. -/
theorem Handled.out_cases {s h : State} {i : Instr} {n : Next} (H : Handled s i h n) :
    h.out = s.out ∨ ∃ opA a, i = .prn opA ∧ s.names opA a ∧ h.out = s.out ++ [s.reg a] := by
  cases H
  case prn ha => exact .inr ⟨_, _, rfl, ha, rfl⟩
  all_goals exact .inl rfl

end Sys2Proof.Machine
end

section
/-! The statements about output (49_output.md). -/

namespace Sys2Proof.Machine

/-- Settles O16: neither the fetch, the advance nor an invalid opcode writes the PRN trace, and among the handlers only
that of `PRN` does (`Handled.out_cases`). -/
theorem onlyPrnPrints : Obligations.OnlyPrnPrints := by
  intro s t e hout
  rcases step_next e with ⟨-, rfl⟩ | ⟨-, -, -, rfl⟩ | ⟨-, -, i, hd, e'⟩
  · exact absurd rfl hout
  · exact absurd rfl hout
  · obtain ⟨h, n, p, H, rfl, -⟩ := exec_next e'
    rcases H.out_cases with hsame | ⟨opA, a, rfl, ha, hgrown⟩
    · exact absurd hsame hout
    · exact ⟨opA, a, hd, ha, hgrown⟩

/-- Settles O54: the handler adds the register's value to the trace and falls through. -/
theorem prnAppendsTheValue : Obligations.PrnAppendsTheValue :=
  fun _ _ _ ha hadv => (Handled.prn ha).exec_fallthrough hadv

end Sys2Proof.Machine
end

section
/-! SUPPORT. What a handler does to the report trace and the run state (60_exceptions.md R182, R184), and why an
instruction stops (R188, R189). -/

namespace Sys2Proof.Machine

/-- A handler makes no report and leaves the run state as it is unless it is that of `HLT`, or it halts on a zero divisor
and reports that. -/
theorem Handled.rep_cases {s h : State} {i : Instr} {n : Next} (H : Handled s i h n) :
    (h.rep = s.rep ∧ (h.run = s.run ∨ i = .hlt)) ∨
    (h.run = .halted ∧ i ≠ .hlt ∧ h.rep = s.rep ++ [⟨.divideByZero, s.ir⟩]) := by
  cases H
  case hlt => exact .inl ⟨rfl, .inr rfl⟩
  case divZero | modZero => exact .inr ⟨rfl, nofun, rfl⟩
  all_goals exact .inl ⟨rfl, .inl rfl⟩

/-- The reasons an instruction can fault for. -/
theorem exec_fault {i : Instr} {s : State} {f : Fault} (e : exec i s = .fault f) :
    (f = .undefinedBoundary s.pc ∧ s.cfg.boundary = .fault) ∨
    ∃ b ∈ i.regOperands, f = .undefinedRegisterIndex b ∧ s.cfg.regidx = .fault ∧ 8 ≤ b.toNat := by
  rcases exec_cases i s with ⟨h, n, H, e'⟩ | ⟨b, hb, hnone, e'⟩ | ⟨-, -, -, e'⟩
  · obtain ⟨hcfg, hpc, -⟩ := H.keeps
    rcases complete_cases h n with ⟨p, e'', -⟩ | ⟨e'', -, hfault, -⟩
    · cases e.symm.trans (e'.trans e'')
    · cases e.symm.trans (e'.trans e'')
      exact .inl ⟨congrArg _ hpc, hcfg ▸ hfault⟩
  · cases e.symm.trans e'
    obtain ⟨hpolicy, h8⟩ := regIndex_eq_none.1 hnone
    exact .inr ⟨b, hb, rfl, hpolicy, h8⟩
  · cases e.symm.trans e'

/-- The one reason an instruction can be refused for (D6). -/
theorem exec_refused {i : Instr} {s : State} {r : Refusal} (e : exec i s = .refused r) :
    r = .notWithheld ∧ s.cfg.not = .refuse ∧ ∃ opA, i = .not opA := by
  rcases exec_cases i s with ⟨h, n, -, e'⟩ | ⟨_, -, -, e'⟩ | ⟨opA, hi, hpolicy, e'⟩
  · rcases complete_cases h n with ⟨p, e'', -⟩ | ⟨e'', -⟩
    · cases e.symm.trans (e'.trans e'')
    · cases e.symm.trans (e'.trans e'')
  · cases e.symm.trans e'
  · cases e.symm.trans e'
    exact ⟨rfl, hpolicy, opA, hi⟩

/-- Only under the policy `fault` can a step not begin (R90 (a)). -/
theorem State.boundary_eq_fault_of_not_enters {s : State} (he : ¬ s.enters) : s.cfg.boundary = .fault := by
  cases hb : s.cfg.boundary with
  | fault => rfl
  | wrap => exact absurd (.inl hb) he

end Sys2Proof.Machine
end

section
/-! The statements about the exceptional conditions (60_exceptions.md). -/

namespace Sys2Proof.Machine

/-- Settles O17: an invalid opcode reports and halts before any handler; a decoded instruction reports what its handler
does (`Handled.rep_cases`), with `ir` holding the fetched byte. -/
theorem reportsAreTheFatalHalts : Obligations.ReportsAreTheFatalHalts := by
  intro s t hrun e
  rcases step_next e with ⟨hhalted, -⟩ | ⟨-, -, ⟨d, hd⟩, rfl⟩ | ⟨-, -, i, hd, e'⟩
  · rw [hrun] at hhalted; cases hhalted
  · exact .inr ⟨rfl, by simp [hd], .inl ⟨⟨d, hd⟩, rfl⟩⟩
  · obtain ⟨h, n, p, H, rfl, -⟩ := exec_next e'
    rcases H.rep_cases with ⟨hrep, hrun' | rfl⟩ | ⟨hhalted, hne, hrep⟩
    · exact .inl ⟨hrep, .inl (hrun'.trans hrun)⟩
    · exact .inl ⟨hrep, .inr hd⟩
    · exact .inr ⟨hhalted, by simpa [hd] using hne, .inr ⟨⟨i, hd⟩, hrep⟩⟩

/-- Settles O29: a step stops at its entry (`step_boundary`) or where its instruction does (`exec_fault`,
`exec_refused`). -/
theorem stopsOnlyWhereUndefined : Obligations.StopsOnlyWhereUndefined := by
  intro s
  rcases step_cases s with ⟨-, e⟩ | ⟨-, he, e⟩ | ⟨-, -, -, e⟩ | ⟨-, -, i, hd, e⟩
  · simp [e]
  · refine ⟨fun f hf => ?_, fun r hr => ?_⟩
    · cases e.symm.trans hf
      exact .inl ⟨rfl, State.boundary_eq_fault_of_not_enters he⟩
    · cases e.symm.trans hr
  · simp [e]
  · refine ⟨fun f hf => ?_, fun r hr => ?_⟩
    · rcases exec_fault (e.symm.trans hf) with hboundary | ⟨b, hb, rfl, hpolicy, h8⟩
      · exact .inl hboundary
      · exact .inr ⟨b, i, rfl, hpolicy, h8, hd, hb⟩
    · obtain ⟨hr', hpolicy, opA, rfl⟩ := exec_refused (e.symm.trans hr)
      exact ⟨hr', hpolicy, opA, hd⟩

end Sys2Proof.Machine
end

section
/-! SUPPORT. The memory of a total map reads as that map (70_reset_and_hazards.md R206). -/

namespace Sys2Proof.Machine

/-- The memory of a map lists every address where the map does not answer `unlistedByte`. -/
theorem Memory.mem_ofMap_of_ne {m0 : Byte → Byte} {a : Byte} (h : m0 a ≠ unlistedByte) :
    (a.toNat, m0 a) ∈ Memory.ofMap m0 :=
  List.mem_filterMap.2 ⟨a.toNat, List.mem_range.2 a.isLt, by simp [h]⟩

/-- The memory of a map reads as the map at all 256 addresses: a byte that is listed is the map's, and where none is
listed both are `unlistedByte`. -/
theorem Memory.read_ofMap (m0 : Byte → Byte) (a : Byte) : Memory.read (Memory.ofMap m0) a = m0 a := by
  have hlisted (v : Byte) := Memory.mem_iff_read (Memory.ofMap_wf m0) (a.toNat, v)
  simp only [a.isLt, true_and, BitVec.ofNat_toNat, BitVec.setWidth_eq] at hlisted
  by_cases h : m0 a = unlistedByte
  · by_contra hne
    have hread : Memory.read (Memory.ofMap m0) a ≠ unlistedByte := h ▸ hne
    obtain ⟨-, hmap, -⟩ := Memory.mem_ofMap ((hlisted _).2 ⟨hread, rfl⟩)
    simp only [BitVec.ofNat_toNat, BitVec.setWidth_eq] at hmap
    exact hne hmap
  · exact ((hlisted _).1 (Memory.mem_ofMap_of_ne h)).2

end Sys2Proof.Machine
end

section
/-! The statements about the host's launch and poke (70_reset_and_hazards.md). -/

namespace Sys2Proof.Machine

/-- Settles O3: the memory of a map is canonical (`ofMap_wf`) and reads as the map (`read_ofMap`). -/
theorem launchReadsTheGivenMemory : Obligations.LaunchReadsTheGivenMemory :=
  fun _ m0 => ⟨Memory.read_ofMap m0, Memory.ofMap_wf m0, rfl⟩

/-- Settles O57: a poke is the engine's write of one byte (R42). -/
theorem pokeWritesOneByteOnly : Obligations.PokeWritesOneByteOnly :=
  fun _ addr v hm => ⟨rfl, Memory.write_wf hm addr v, Memory.read_write hm addr v⟩

end Sys2Proof.Machine
end
